-- ==== Sys2Proof/Word.lean ====
section
/-! DEFINITION. The word types of the control store: addresses, their three sub-fields, and control words. -/

namespace Sys2Proof

/-- A ROM address: 8 bits (rules R7, R58). -/
abbrev Address := BitVec 8

/-- The opcode sub-field of an address: 6 bits (rules R7, R58). -/
abbrev Opcode := BitVec 6

/-- A one-bit input: the interrupt request `irq` or the zero flag `z` (rules R27, R58). -/
abbrev Bit := BitVec 1

/-- A control word: 17 bits (rules R7, R62). -/
abbrev ControlWord := BitVec 17

end Sys2Proof
end

