-- ==== Sys2Proof/Config.lean ====
section
/-! DEFINITION. The parameters of the block: the sizes rule R7 fixes and `aluOrder` of rule R8.
The other parameters of rule R8 (artifactFormat, datapathMeaning, flagConvention) are open and no rule of the block
depends on them, so the model gives them no value. -/

namespace Sys2Proof

/-- The number of opcodes, 2^OPCODE_WIDTH (rule R7). -/
abbrev Config.opcodeCount : Nat := 64

/-- The number of words in the ROM, ROM_DEPTH (rule R7). -/
abbrev Config.romDepth : Nat := 256

/-- One instantiation of the ALUOp rule: the base opcode and the ALU function code (rules R110, R111).
The numbers are naturals because a custom instantiation may be out of range (rule R110, exceptions). -/
structure AluEntry where
  base : Nat
  fn   : Nat
deriving DecidableEq, Repr

/-- `aluOrder`, the order in which ALUOp is instantiated: rule R111's table, XOR before XNOR (R8, D13). The encoder
takes the order as an argument (R18, D30); this is the value the reference build gives it. -/
def Config.aluOrder : List AluEntry :=
  [ { base := 0b100000, fn := 0b00000 },   -- ADD
    { base := 0b100001, fn := 0b00001 },   -- SUB
    { base := 0b100010, fn := 0b00010 },   -- MUL
    { base := 0b100100, fn := 0b00101 },   -- CMPEQ
    { base := 0b100101, fn := 0b00111 },   -- CMPLT
    { base := 0b100110, fn := 0b01101 },   -- CMPLE
    { base := 0b101000, fn := 0b11000 },   -- AND
    { base := 0b101001, fn := 0b11110 },   -- OR
    { base := 0b101010, fn := 0b10110 },   -- XOR
    { base := 0b101010, fn := 0b11001 },   -- XNOR
    { base := 0b101100, fn := 0b01000 },   -- SHL
    { base := 0b101101, fn := 0b01001 },   -- SHR
    { base := 0b101110, fn := 0b01011 } ]  -- SRA

end Sys2Proof
end

