-- ==== Sys2Proof/Syntax.lean ====
section
/-! DEFINITION. The field configuration of PROGRAM and the instruction set: one constructor per row of the opcode table. -/

namespace Sys2Proof

/-- The ten named fields of a control word, in ascending bit offset (rule R63). -/
inductive Field where
  | moe | wasel | werf | wr | alufn | wdsel | bsel | asel | ra2sel | pcsel
deriving DecidableEq, Repr

/-- A field configuration: a natural number for each of the ten fields; a field the writer leaves out takes its default,
1 for moe and 0 for every other (rules R63, R64, R88). -/
structure FieldConfig where
  moe    : Nat := 1
  wasel  : Nat := 0
  werf   : Nat := 0
  wr     : Nat := 0
  alufn  : Nat := 0
  wdsel  : Nat := 0
  bsel   : Nat := 0
  asel   : Nat := 0
  ra2sel : Nat := 0
  pcsel  : Nat := 0
deriving DecidableEq, Repr

/-- The instructions of the opcode table. An address row carries the address bits its encoding leaves open: `z` (the zero flag, bit 0),
and for IRQ and ILLEGAL the opcode (bits 7 to 2) too (rules R58, R77). A builder row carries its operands (rules R87 to
R96). -/
inductive Instr where
  -- the interrupt row
  | irq (opcode : Opcode) (z : Bit)
  -- the arithmetic/logic rows
  | add (z : Bit)
  | addc (z : Bit)
  | sub (z : Bit)
  | subc (z : Bit)
  | mul (z : Bit)
  | mulc (z : Bit)
  | cmpeq (z : Bit)
  | cmpeqc (z : Bit)
  | cmplt (z : Bit)
  | cmpltc (z : Bit)
  | cmple (z : Bit)
  | cmplec (z : Bit)
  | and (z : Bit)
  | andc (z : Bit)
  | or (z : Bit)
  | orc (z : Bit)
  | xor (z : Bit)
  | xorc (z : Bit)
  | xnor (z : Bit)
  | xnorc (z : Bit)
  | shl (z : Bit)
  | shlc (z : Bit)
  | shr (z : Bit)
  | shrc (z : Bit)
  | sra (z : Bit)
  | srac (z : Bit)
  -- the branch, load and jump rows
  | beq (z : Bit)
  | bne (z : Bit)
  | ldr (z : Bit)
  | jmp (z : Bit)
  -- the illegal-instruction default row
  | illegal (opcode : Opcode) (z : Bit)
  -- the builder and port operations
  | create
  | program (opcode z irq : Nat) (F : FieldConfig)
  | sealImage
  | read (a : Nat)
  | lookup (opcode : Opcode) (irq z : Bit)
  | unpack (w : ControlWord)
deriving DecidableEq, Repr

end Sys2Proof
end

