-- ==== Sys2Proof/Machine/Operands.lean ====
section
/-! DEFINITION. The two encoded formats: forming and splitting an address (rules R58 to R61), packing and unpacking a control
word (rules R62 to R66), and the width check of a field configuration (rule R90). -/

namespace Sys2Proof

/-! ## Addresses -/

/-- Address formation at the port's widths (rule R59): `opcode<<2 | irq<<1 | zero`. -/
def formAddress (opcode : Opcode) (irq z : Bit) : Address :=
  (opcode.setWidth 8 <<< 2) ||| (irq.setWidth 8 <<< 1) ||| z.setWidth 8

/-- The same formula on naturals; outside the legal ranges it may alias or leave the space (rules R61, R148). -/
def formedNumber (opcode irq z : Nat) : Nat :=
  (opcode <<< 2) ||| (irq <<< 1) ||| z

/-- Whether PROGRAM's three sub-fields are in range, each checked on its own (rules R36, R61, R89). -/
def subFieldsLegal (opcode irq z : Nat) : Bool :=
  decide (opcode < Config.opcodeCount) && decide (irq < 2) && decide (z < 2)

/-- `a[7:2]` (rule R60). -/
def addressOpcode (a : Address) : Opcode := a.extractLsb' 2 6

/-- `a[1]` (rule R60). -/
def addressIrq (a : Address) : Bit := a.extractLsb' 1 1

/-- `a[0]` (rule R60). -/
def addressZero (a : Address) : Bit := a.extractLsb' 0 1

/-- The 256 addresses in ascending order (rule R39). -/
def allAddresses : List Address := (List.range Config.romDepth).map (BitVec.ofNat 8)

/-! ## Control words -/

/-- The fields in ascending bit offset, the order in which PROGRAM checks them (rules R63, R89, R153). -/
def Field.all : List Field :=
  [.moe, .wasel, .werf, .wr, .alufn, .wdsel, .bsel, .asel, .ra2sel, .pcsel]

/-- The bit offset of a field (rule R63). -/
def Field.offset : Field → Nat
  | .moe => 0 | .wasel => 1 | .werf => 2 | .wr => 3 | .alufn => 4
  | .wdsel => 9 | .bsel => 11 | .asel => 12 | .ra2sel => 13 | .pcsel => 14

/-- The width of a field (rule R63). -/
def Field.width : Field → Nat
  | .moe => 1 | .wasel => 1 | .werf => 1 | .wr => 1 | .alufn => 5
  | .wdsel => 2 | .bsel => 1 | .asel => 1 | .ra2sel => 1 | .pcsel => 3

/-- The mask of a field, `mask(width) << offset` (rule R63). -/
def Field.mask (f : Field) : ControlWord := BitVec.ofNat 17 ((2 ^ f.width - 1) <<< f.offset)

/-- The value a configuration gives a field. -/
def FieldConfig.get (F : FieldConfig) : Field → Nat
  | .moe => F.moe | .wasel => F.wasel | .werf => F.werf | .wr => F.wr | .alufn => F.alufn
  | .wdsel => F.wdsel | .bsel => F.bsel | .asel => F.asel | .ra2sel => F.ra2sel | .pcsel => F.pcsel

/-- Every value fits its field (rules R22, R90). -/
abbrev FieldConfig.Fits (F : FieldConfig) : Prop := ∀ f ∈ Field.all, F.get f < 2 ^ f.width

/-- The field PROGRAM reports: the first, in ascending offset, whose value needs more bits than it has (rules R147, R153). -/
def FieldConfig.firstOverflow (F : FieldConfig) : Option Field :=
  Field.all.find? fun f => decide (2 ^ f.width ≤ F.get f)

/-- Packing (rule R65). -/
def pack (F : FieldConfig) : ControlWord :=
  BitVec.ofNat 17
    ((F.moe <<< 0) ||| (F.wasel <<< 1) ||| (F.werf <<< 2) ||| (F.wr <<< 3) |||
     (F.alufn <<< 4) ||| (F.wdsel <<< 9) ||| (F.bsel <<< 11) ||| (F.asel <<< 12) |||
     (F.ra2sel <<< 13) ||| (F.pcsel <<< 14))

/-- The bits of `w` that hold field `f`, as a number: `(w >> offset) & mask(width)` (rule R66). -/
def fieldOf (w : ControlWord) (f : Field) : Nat := (w.extractLsb' f.offset f.width).toNat

/-- Unpacking (rules R66, R96). -/
def unpack (w : ControlWord) : FieldConfig where
  moe    := fieldOf w .moe
  wasel  := fieldOf w .wasel
  werf   := fieldOf w .werf
  wr     := fieldOf w .wr
  alufn  := fieldOf w .alufn
  wdsel  := fieldOf w .wdsel
  bsel   := fieldOf w .bsel
  asel   := fieldOf w .asel
  ra2sel := fieldOf w .ra2sel
  pcsel  := fieldOf w .pcsel

end Sys2Proof
end

