-- ==== Sys2Proof/WellFormed.lean ====
section
/-! DEFINITION. Which terms of `Instr` stand for a row of the opcode table. -/

namespace Sys2Proof

/-- The 36 opcodes that no instruction-class rule programs (rule R80). -/
def illegalOpcodes : List Opcode :=
  [0x00, 0x01, 0x02, 0x03, 0x04, 0x05, 0x06, 0x07, 0x08, 0x09, 0x0A, 0x0B, 0x0C, 0x0D, 0x0E, 0x0F,
   0x10, 0x11, 0x12, 0x13, 0x14, 0x15, 0x16, 0x17, 0x18, 0x19, 0x1A, 0x1E,
   0x23, 0x27, 0x2B, 0x2F, 0x33, 0x37, 0x3B, 0x3F]

/-- An ILLEGAL row needs an opcode that no class rule programs (rule R80); every other term is a row as it stands.
PROGRAM and READ take any natural operands: what lies out of range raises or faults (rules R36, R89, R93). -/
def Instr.wellFormed : Instr → Bool
  | .illegal opcode _ => illegalOpcodes.contains opcode
  | .irq _ _ => true
  | .add _ | .addc _ | .sub _ | .subc _ | .mul _ | .mulc _ => true
  | .cmpeq _ | .cmpeqc _ | .cmplt _ | .cmpltc _ | .cmple _ | .cmplec _ => true
  | .and _ | .andc _ | .or _ | .orc _ | .xor _ | .xorc _ | .xnor _ | .xnorc _ => true
  | .shl _ | .shlc _ | .shr _ | .shrc _ | .sra _ | .srac _ => true
  | .beq _ | .bne _ | .ldr _ | .jmp _ => true
  | .create | .program _ _ _ _ | .sealImage | .read _ | .lookup _ _ _ | .unpack _ => true

end Sys2Proof
end

