-- ==== Sys2Proof/Decode.lean ====
section
/-! DEFINITION. Decoding an address to the row of the opcode table it selects, and the encoder back to the address.
A builder or port operation is not address-encoded (the table's own words), so it has no address. -/

namespace Sys2Proof

/-- Why a number is no address, by name. -/
inductive DecodeReject where
  /-- 256 or more: outside the address space (rule R39). -/
  | addressOutOfRange (n : Nat)
deriving DecidableEq, Repr

/-- The row at an irq = 0 address (rule R77): a class row where a class rule programs the opcode, else ILLEGAL (rule R80).
At 0x2A and 0x3A the row is XNOR and XNORC, the last of the two instantiations (rule R82; log 10). -/
def decodeOpcode (opcode : Opcode) (z : Bit) : Instr :=
  match opcode.toNat with
  | 0x1B => .jmp z
  | 0x1C => .beq z
  | 0x1D => .bne z
  | 0x1F => .ldr z
  | 0x20 => .add z
  | 0x21 => .sub z
  | 0x22 => .mul z
  | 0x24 => .cmpeq z
  | 0x25 => .cmplt z
  | 0x26 => .cmple z
  | 0x28 => .and z
  | 0x29 => .or z
  | 0x2A => .xnor z
  | 0x2C => .shl z
  | 0x2D => .shr z
  | 0x2E => .sra z
  | 0x30 => .addc z
  | 0x31 => .subc z
  | 0x32 => .mulc z
  | 0x34 => .cmpeqc z
  | 0x35 => .cmpltc z
  | 0x36 => .cmplec z
  | 0x38 => .andc z
  | 0x39 => .orc z
  | 0x3A => .xnorc z
  | 0x3C => .shlc z
  | 0x3D => .shrc z
  | 0x3E => .srac z
  | _ => .illegal opcode z

/-- The row an address selects: irq = 1 selects the interrupt row whatever the opcode (rules R83, R156). -/
def decodeAddress (a : Address) : Instr :=
  if addressIrq a = 1 then .irq (addressOpcode a) (addressZero a)
  else decodeOpcode (addressOpcode a) (addressZero a)

/-- Decoding any number: an address decodes, a number of 256 or more is refused by name. -/
def decode (n : Nat) : Except DecodeReject Instr :=
  if n < Config.romDepth then .ok (decodeAddress (BitVec.ofNat 8 n)) else .error (.addressOutOfRange n)

/-- The instruction the decoder reads from an opcode-table word of `nbits` bits. Address rows are the only encoded rows, and
all are 8 bits wide (rule R83). -/
def decodeTableWord (nbits w : Nat) : Option Instr :=
  if nbits = 8 then (decode w).toOption else none

/-- The read-port inputs (opcode, irq, zero) that select a row: the Operands line of its rule (R102, R104, R112 to R145).
None for an operation that is not address-encoded. -/
def Instr.inputs : Instr → Option (Opcode × Bit × Bit)
  | .irq opcode z => some (opcode, 1, z)
  | .add z => some (0x20, 0, z)
  | .addc z => some (0x30, 0, z)
  | .sub z => some (0x21, 0, z)
  | .subc z => some (0x31, 0, z)
  | .mul z => some (0x22, 0, z)
  | .mulc z => some (0x32, 0, z)
  | .cmpeq z => some (0x24, 0, z)
  | .cmpeqc z => some (0x34, 0, z)
  | .cmplt z => some (0x25, 0, z)
  | .cmpltc z => some (0x35, 0, z)
  | .cmple z => some (0x26, 0, z)
  | .cmplec z => some (0x36, 0, z)
  | .and z => some (0x28, 0, z)
  | .andc z => some (0x38, 0, z)
  | .or z => some (0x29, 0, z)
  | .orc z => some (0x39, 0, z)
  | .xor z => some (0x2A, 0, z)
  | .xorc z => some (0x3A, 0, z)
  | .xnor z => some (0x2A, 0, z)
  | .xnorc z => some (0x3A, 0, z)
  | .shl z => some (0x2C, 0, z)
  | .shlc z => some (0x3C, 0, z)
  | .shr z => some (0x2D, 0, z)
  | .shrc z => some (0x3D, 0, z)
  | .sra z => some (0x2E, 0, z)
  | .srac z => some (0x3E, 0, z)
  | .beq z => some (0x1C, 0, z)
  | .bne z => some (0x1D, 0, z)
  | .ldr z => some (0x1F, 0, z)
  | .jmp z => some (0x1B, 0, z)
  | .illegal opcode z => some (opcode, 0, z)
  | .create | .program _ _ _ _ | .sealImage | .read _ | .lookup _ _ _ | .unpack _ => none

/-- The address of a row (rule R59), none for an operation that is not address-encoded. -/
def encode (i : Instr) : Option Address :=
  i.inputs.map fun p => formAddress p.1 p.2.1 p.2.2

/-- The name the decoder gives a row's address: XOR and XORC are shadowed by XNOR and XNORC (rules R82, R111), every other
row keeps its own. -/
def Instr.shadowedBy : Instr → Instr
  | .xor z => .xnor z
  | .xorc z => .xnorc z
  | i => i

end Sys2Proof
end

