-- ==== Sys2Proof/Machine/Flags.lean ====
section
/-! DEFINITION. The block's only computation from a flag. It stores no flag and writes none (rule R27). -/

namespace Sys2Proof

/-- The next-PC select of the branch class, `pcsel = 1 XOR zero`, from the zero bit of the address being programmed
(rules R79, R138, R139): 1 (branch target) at zero = 0, 0 (sequential) at zero = 1. BEQ and BNE use the same formula. -/
def branchPcsel (z : Nat) : Nat := 1 ^^^ z

end Sys2Proof
end

