-- ==== Sys2Proof/Machine/Encoder.lean ====
section
/-! DEFINITION. The InstructionClassEncoder: the build language's macros as lists of PROGRAM operations (rule R85) and the
reference sequence (rule R100). Inside a macro the opcode ascends and zero runs 0 then 1 (D14). -/

namespace Sys2Proof

/-- The fields of the illegal-instruction word (rules R101, R102). -/
def illegalConfig : FieldConfig := { werf := 1, wdsel := 0, wr := 0, pcsel := 3, wasel := 1 }

/-- The fields of the interrupt word (rules R103, R104). -/
def interruptConfig : FieldConfig := { werf := 1, wdsel := 0, wr := 0, pcsel := 4, wasel := 1 }

/-- The fields of an arithmetic/logic word: `bsel` 0 for the two-register form, 1 for the constant form (rule R110). -/
def aluConfig (fn bsel : Nat) : FieldConfig :=
  { alufn := fn, werf := 1, bsel := bsel, wdsel := 1, wr := 0, asel := 0, wasel := 0 }

/-- The fields of a branch word at one value of the zero bit (rule R138). -/
def branchConfig (z : Nat) : FieldConfig :=
  { werf := 1, wdsel := 0, wr := 0, pcsel := branchPcsel z, wasel := 0 }

/-- The fields of a load word (rule R142). -/
def loadConfig : FieldConfig :=
  { alufn := 0b11010, werf := 1, wdsel := 2, wr := 0, pcsel := 0, asel := 1, wasel := 0 }

/-- The fields of a jump word (rule R144). -/
def jumpConfig : FieldConfig := { werf := 1, wdsel := 0, wr := 0, pcsel := 2, wasel := 0 }

/-- One PROGRAM at each opcode and each zero value with the given irq (the shape of rules R101 and R103). -/
def fillAll (irq : Nat) (F : FieldConfig) : List Instr :=
  (List.range Config.opcodeCount).flatMap fun opcode => [.program opcode 0 irq F, .program opcode 1 irq F]

/-- DefaultFill: the illegal-instruction word at every irq = 0 address (rule R101). -/
def defaultFill : List Instr := fillAll 0 illegalConfig

/-- InterruptOverride: the interrupt word at every irq = 1 address (rule R103). -/
def interruptOverride : List Instr := fillAll 1 interruptConfig

/-- ALUOp: both forms of one arithmetic/logic instruction, at both zero values (rule R110). -/
def aluOp (base fn : Nat) : List Instr :=
  [.program base 0 0 (aluConfig fn 0), .program (base ||| 0b10000) 0 0 (aluConfig fn 1),
   .program base 1 0 (aluConfig fn 0), .program (base ||| 0b10000) 1 0 (aluConfig fn 1)]

/-- Branch: the branch word at both zero values (rule R138). -/
def branchOp (op : Nat) : List Instr :=
  [.program op 0 0 (branchConfig 0), .program op 1 0 (branchConfig 1)]

/-- Load (rule R142). -/
def loadOp (op : Nat) : List Instr := [.program op 0 0 loadConfig, .program op 1 0 loadConfig]

/-- Jump (rule R144). -/
def jumpOp (op : Nat) : List Instr := [.program op 0 0 jumpConfig, .program op 1 0 jumpConfig]

/-- Steps 3 to 6 of the encoder: the instruction classes (rule R100). -/
def classOps (order : List AluEntry) : List Instr :=
  (order.flatMap fun e => aluOp e.base e.fn) ++
    branchOp 0b011100 ++ branchOp 0b011101 ++ loadOp 0b011111 ++ jumpOp 0b011011

/-- The encoder's PROGRAM operations in build order, for a given `aluOrder` (rules R100, R111, D13). -/
def encoderOps (order : List AluEntry) : List Instr :=
  defaultFill ++ interruptOverride ++ classOps order

/-- What follows CREATE in the reference build: 316 PROGRAM operations, then SEAL (rule R100). -/
def referenceBuild : List Instr := encoderOps Config.aluOrder ++ [.sealImage]

end Sys2Proof
end

