-- ==== Sys2Proof/Machine/State.lean ====
section
/-! DEFINITION. The machine's state as plain data, the reasons it can stop, and the state after reset. -/

namespace Sys2Proof.Machine

/-- One listed word of the ROM: its address and its control word. The ROM's addressable unit is a 17-bit word, not a byte
(rules R39, R42). -/
abbrev Cell := Nat × ControlWord

/-- The ROM image `rom` (rule R21) in canonical form: addresses strictly rising and below 256, no word equal to what an
unlisted address reads as, which is 0, the fill of CREATE (rules R23, R87). -/
abbrev Memory := List Cell

/-- The build errors (rule R146). Raising one is not a stop: the next state is in phase `aborted` and holds the record. -/
inductive BuildError where
  /-- PROGRAM: a field value does not fit its declared width (rule R147). -/
  | fieldOverflow (address : Address) (opcode irq z : Nat) (field : Field) (value width : Nat)
  /-- PROGRAM: a sub-field of the address is out of range; `formed` is the number the formula gives (rule R148). -/
  | addressOutOfRange (opcode irq z formed : Nat)
  /-- SEAL: an address was never written; the least one (rule R152). -/
  | incompleteImage (address : Address)
deriving DecidableEq, Repr

/-- The values of the control state `phase` (rule R28). -/
inductive Phase where
  | building
  | sealed
  /-- Terminal; the error record is saved here (rules R150, R158). -/
  | aborted (e : BuildError)
deriving DecidableEq, Repr

/-- A value the block answers on its output side (rules R35, R93, R95, R96). The block stores no output: this is the model's
record of the last one (log 5). -/
inductive Output where
  /-- Nothing answered yet. CREATE, PROGRAM and SEAL return no value and leave the record as it is. -/
  | nothing
  /-- READ returns a word. -/
  | word (w : ControlWord)
  /-- UNPACK returns the ten fields. -/
  | fields (F : FieldConfig)
  /-- The read port gives `cw` and the ten field signals. -/
  | port (cw : ControlWord) (F : FieldConfig)
deriving DecidableEq, Repr

/-- The faults of rule R151, and the two by which the model keeps CREATE at the start of rule R29's table (log 1): an operation
outside its phase (D1), or a read outside the space. A fault stops the run and changes no state. All are safe. -/
inductive Fault where
  /-- A read in phase Building (rules R94, R172). Raised by READ, LOOKUP and every address row. Safe. -/
  | readBeforeBuildComplete (a : Nat)
  /-- PROGRAM in phase Sealed (rules R91, R175). Safe. -/
  | writeAfterSeal (opcode z irq : Nat)
  /-- PROGRAM, SEAL or a read in phase Aborted (rule R150). Safe. -/
  | buildAborted (e : BuildError)
  /-- READ of a natural-number address of 256 or more (rules R29, R93). Safe. -/
  | readOutOfRange (a : Nat)
  /-- CREATE when an image exists, in any phase of rule R28. R29 has CREATE from "(none)" only, no transition leaves Sealed or
  Aborted (R29, R159), and no phase allows it (R161). The name is the model's (log 1). Safe. -/
  | createOverImage (p : Phase)
  /-- PROGRAM, SEAL or a read before CREATE, when there is no image: R29 gives "(none)" no other transition. The name is the
  model's (log 1). Safe. -/
  | noImage
deriving DecidableEq, Repr

/-- The reasons the model gives no meaning. -/
inductive Refusal where
  /-- Raised by an arm of `exec` that has no meaning yet; no arm of this model raises it. Safe. -/
  | notModelled (mnemonic : String)
deriving DecidableEq, Repr

/-- The state: the four pieces the spec gives the block, then the surroundings the model holds beside them. -/
structure State where
  /-- The ROM image (rule R21). -/
  rom : Memory
  /-- `written`: which addresses a PROGRAM has written (rule R31). -/
  written : Vector Bool 256
  /-- `phase` (rule R28). `none` is the start of rule R29's table, "(none)": CREATE has not run, so there is no image and `phase`
  has no value yet. -/
  phase : Option Phase
  /-- The sequencer position `step` (rule R26). -/
  stepIndex : Nat
  /-- The operations still to be carried out, in order: the rest of the build list (rules R26, R100; log 3). -/
  pending : List Instr
  /-- Read-port input `opcode` (rule R34). -/
  portOpcode : Opcode
  /-- Read-port input `irq` (rules R27, R34). -/
  portIrq : Bit
  /-- Read-port input `z`, the zero flag (rules R27, R34). -/
  portZ : Bit
  /-- The last value answered (rule R35; log 5). -/
  output : Output
deriving DecidableEq, Repr

/-- The machine right after reset: what CREATE leaves (rules R37, R87, R168; log 4), with the reference build waiting (rules
R100, R171; log 3) and the read-port inputs at 0 (log 6). -/
def State.reset : State where
  rom := []
  written := Vector.replicate 256 false
  phase := some .building
  stepIndex := 0
  pending := referenceBuild
  portOpcode := 0
  portIrq := 0
  portZ := 0
  output := .nothing

end Sys2Proof.Machine
end

