-- ==== Sys2Proof/Machine/Ops.lean ====
section
/-! DEFINITION. The named operations the meanings share: reading and writing the ROM, raising a build error, and the block's
own operations PROGRAM, SEAL and READ of `41_builder.md`. -/

namespace Sys2Proof.Machine

/-! ## The ROM image -/

/-- What an unlisted address reads as: the zero fill of CREATE (rules R23, R87). -/
def Memory.unlisted : ControlWord := 0

/-- `MemRead(a, 1)`: the word at an address (rule R12). -/
def Memory.read : Memory → Nat → ControlWord
  | [], _ => Memory.unlisted
  | (b, v) :: rest, a => if a = b then v else Memory.read rest a

/-- Put a cell in front, unless it reads as an unlisted address does. -/
def Memory.cons (a : Nat) (w : ControlWord) (rest : Memory) : Memory :=
  if w = Memory.unlisted then rest else (a, w) :: rest

/-- `MemWrite(a, 1, w)`: replace the whole word at an address (rules R12, R46), keeping the canonical form. -/
def Memory.write : Memory → Nat → ControlWord → Memory
  | [], a, w => Memory.cons a w []
  | (b, v) :: rest, a, w =>
    if a < b then Memory.cons a w ((b, v) :: rest)
    else if a = b then Memory.cons a w rest
    else (b, v) :: Memory.write rest a w

/-- The canonical form: addresses strictly rising and inside the space, no listed word that an unlisted address reads as. -/
abbrev Memory.wf (m : Memory) : Prop :=
  m.Pairwise (fun x y => x.1 < y.1) ∧ ∀ c ∈ m, c.1 < Config.romDepth ∧ c.2 ≠ Memory.unlisted

/-! ## Reading and updating the state -/

/-- `written[a]` (rule R31). -/
def State.isWritten (s : State) (a : Address) : Bool := s.written[a.toNat]'a.isLt

/-- The least address no PROGRAM has written, if there is one (rules R92, R152). -/
def State.leastUnwritten (s : State) : Option Address := allAddresses.find? fun a => !s.isWritten a

/-- Record the value an operation answers (log 5). -/
def State.withOutput (s : State) (o : Output) : State := { s with output := o }

/-- Take the operations still to be carried out (log 3). -/
def State.withPending (s : State) (is : List Instr) : State := { s with pending := is }

/-- The block's exception entry: raising a build error saves the record in the phase and ends the build; `rom`, `written` and
`step` stay (rules R89, R146, R150, R158). Nothing returns from it (rule R159). -/
def State.raise (s : State) (e : BuildError) : State := { s with phase := some (.aborted e) }

/-- The successful end of a PROGRAM: the whole word is written, the address marked, `step` advanced (rules R46, R47, R89). -/
def State.writeWord (s : State) (a : Address) (w : ControlWord) : State :=
  { s with
    rom := s.rom.write a.toNat w
    written := s.written.set a.toNat true a.isLt
    stepIndex := s.stepIndex + 1 }

/-- The image that CREATE makes: empty, in phase Building, `step` 0 (rules R37, R87, R168). -/
def State.created (s : State) : State :=
  { s with
    rom := []
    written := Vector.replicate 256 false
    phase := some .building
    stepIndex := 0 }

/-- The successful end of SEAL: the image is finished; `step` stays at the number of PROGRAMs done (rules R26, R92; log 2). -/
def State.sealedNow (s : State) : State := { s with phase := some .sealed }

/-! ## The block's operations -/

/-- CREATE makes the image where there is none yet (rules R29, R87). Once an image exists it has a phase, and no phase allows
CREATE (rules R29, R159, R161; D1; log 1). -/
def State.create (s : State) : Host.Outcome State Fault Refusal :=
  match s.phase with
  | none => .next s.created
  | some p => .fault (.createOverImage p)

/-- PROGRAM in phase Building: the address sub-fields are checked, then the fields in ascending offset; the first check that
fails is raised and nothing is written; else the packed word is written whole (rules R89, R90, R153). -/
def State.programBuilding (s : State) (opcode z irq : Nat) (F : FieldConfig) : State :=
  if subFieldsLegal opcode irq z then
    let a : Address := BitVec.ofNat 8 (formedNumber opcode irq z)
    match F.firstOverflow with
    | some f => s.raise (.fieldOverflow a opcode irq z f (F.get f) f.width)
    | none => s.writeWord a (pack F)
  else s.raise (.addressOutOfRange opcode irq z (formedNumber opcode irq z))

/-- PROGRAM (rules R89 to R91). -/
def State.program (s : State) (opcode z irq : Nat) (F : FieldConfig) : Host.Outcome State Fault Refusal :=
  match s.phase with
  | none => .fault .noImage
  | some .sealed => .fault (.writeAfterSeal opcode z irq)
  | some (.aborted e) => .fault (.buildAborted e)
  | some .building => .next (s.programBuilding opcode z irq F)

/-- SEAL in phase Building: the totality check, then the phase (rules R92, R152). -/
def State.sealBuilding (s : State) : State :=
  match s.leastUnwritten with
  | some a => s.raise (.incompleteImage a)
  | none => s.sealedNow

/-- SEAL (rule R92): no effect in phase Sealed. -/
def State.sealImage (s : State) : Host.Outcome State Fault Refusal :=
  match s.phase with
  | none => .fault .noImage
  | some .sealed => .next s
  | some (.aborted e) => .fault (.buildAborted e)
  | some .building => .next s.sealBuilding

/-- READ's checks and its word: the phase first, then the address (rules R93, R94). -/
def State.readWord (s : State) (a : Nat) : Except Fault ControlWord :=
  match s.phase with
  | none => .error .noImage
  | some .building => .error (.readBeforeBuildComplete a)
  | some (.aborted e) => .error (.buildAborted e)
  | some .sealed => if a < Config.romDepth then .ok (s.rom.read a) else .error (.readOutOfRange a)

/-- READ: the word is the answer and nothing else changes (rules R48, R93). -/
def State.read (s : State) (a : Nat) : Host.Outcome State Fault Refusal :=
  match s.readWord a with
  | .error f => .fault f
  | .ok w => .next (s.withOutput (.word w))

/-- The address the read port's inputs form (rules R34, R59). -/
def State.portAddress (s : State) : Address := formAddress s.portOpcode s.portIrq s.portZ

/-- The read port's outputs for given inputs: READ of the formed address together with UNPACK of the word (rules R35, R95).
It is combinational: the answer depends on the inputs and the sealed image alone (rule R178). -/
def State.present (s : State) (opcode : Opcode) (irq z : Bit) : Host.Outcome State Fault Refusal :=
  match s.readWord (formAddress opcode irq z).toNat with
  | .error f => .fault f
  | .ok w => .next (s.withOutput (.port w (unpack w)))

/-- The number a model that needs one gives a build error (rule R149). -/
def BuildError.code : BuildError → Nat
  | .fieldOverflow _ _ _ _ _ _ _ => 1
  | .addressOutOfRange _ _ _ _ => 2
  | .incompleteImage _ => 3

end Sys2Proof.Machine
end

