-- ==== Sys2Proof/Machine/Alu.lean ====
section
/-! DEFINITION. The arithmetic/logic rows (43_alu_class.md). Each presents its own address at the read port: the block's part of
the instruction is the control word the ROM holds there and its ten fields (rules R14, R95; log 8). In the sealed reference
image that is the word of the row's rule, but for XOR and XORC, which XNOR and XNORC overwrite (rules R111, R128, R129). -/

namespace Sys2Proof.Machine

/-- ADD, two-register form: opcode 0x20, irq 0 (rule R112). -/
def execAdd (z : Bit) (s : State) : Host.Outcome State Fault Refusal := s.present 0x20 0 z

/-- ADDC, constant form: opcode 0x30, irq 0 (rule R113). -/
def execAddc (z : Bit) (s : State) : Host.Outcome State Fault Refusal := s.present 0x30 0 z

/-- SUB, two-register form: opcode 0x21, irq 0 (rule R114). -/
def execSub (z : Bit) (s : State) : Host.Outcome State Fault Refusal := s.present 0x21 0 z

/-- SUBC, constant form: opcode 0x31, irq 0 (rule R115). -/
def execSubc (z : Bit) (s : State) : Host.Outcome State Fault Refusal := s.present 0x31 0 z

/-- MUL, two-register form: opcode 0x22, irq 0 (rule R116). -/
def execMul (z : Bit) (s : State) : Host.Outcome State Fault Refusal := s.present 0x22 0 z

/-- MULC, constant form: opcode 0x32, irq 0 (rule R117). -/
def execMulc (z : Bit) (s : State) : Host.Outcome State Fault Refusal := s.present 0x32 0 z

/-- CMPEQ, two-register form: opcode 0x24, irq 0 (rule R118). -/
def execCmpeq (z : Bit) (s : State) : Host.Outcome State Fault Refusal := s.present 0x24 0 z

/-- CMPEQC, constant form: opcode 0x34, irq 0 (rule R119). -/
def execCmpeqc (z : Bit) (s : State) : Host.Outcome State Fault Refusal := s.present 0x34 0 z

/-- CMPLT, two-register form: opcode 0x25, irq 0 (rule R120). -/
def execCmplt (z : Bit) (s : State) : Host.Outcome State Fault Refusal := s.present 0x25 0 z

/-- CMPLTC, constant form: opcode 0x35, irq 0 (rule R121). -/
def execCmpltc (z : Bit) (s : State) : Host.Outcome State Fault Refusal := s.present 0x35 0 z

/-- CMPLE, two-register form: opcode 0x26, irq 0 (rule R122). -/
def execCmple (z : Bit) (s : State) : Host.Outcome State Fault Refusal := s.present 0x26 0 z

/-- CMPLEC, constant form: opcode 0x36, irq 0 (rule R123). -/
def execCmplec (z : Bit) (s : State) : Host.Outcome State Fault Refusal := s.present 0x36 0 z

/-- AND, two-register form: opcode 0x28, irq 0 (rule R124). -/
def execAnd (z : Bit) (s : State) : Host.Outcome State Fault Refusal := s.present 0x28 0 z

/-- ANDC, constant form: opcode 0x38, irq 0 (rule R125). -/
def execAndc (z : Bit) (s : State) : Host.Outcome State Fault Refusal := s.present 0x38 0 z

/-- OR, two-register form: opcode 0x29, irq 0 (rule R126). -/
def execOr (z : Bit) (s : State) : Host.Outcome State Fault Refusal := s.present 0x29 0 z

/-- ORC, constant form: opcode 0x39, irq 0 (rule R127). -/
def execOrc (z : Bit) (s : State) : Host.Outcome State Fault Refusal := s.present 0x39 0 z

/-- XOR, two-register form: opcode 0x2A, irq 0 (rule R128). -/
def execXor (z : Bit) (s : State) : Host.Outcome State Fault Refusal := s.present 0x2A 0 z

/-- XORC, constant form: opcode 0x3A, irq 0 (rule R129). -/
def execXorc (z : Bit) (s : State) : Host.Outcome State Fault Refusal := s.present 0x3A 0 z

/-- XNOR, two-register form: opcode 0x2A, irq 0 (rule R130). -/
def execXnor (z : Bit) (s : State) : Host.Outcome State Fault Refusal := s.present 0x2A 0 z

/-- XNORC, constant form: opcode 0x3A, irq 0 (rule R131). -/
def execXnorc (z : Bit) (s : State) : Host.Outcome State Fault Refusal := s.present 0x3A 0 z

/-- SHL, two-register form: opcode 0x2C, irq 0 (rule R132). -/
def execShl (z : Bit) (s : State) : Host.Outcome State Fault Refusal := s.present 0x2C 0 z

/-- SHLC, constant form: opcode 0x3C, irq 0 (rule R133). -/
def execShlc (z : Bit) (s : State) : Host.Outcome State Fault Refusal := s.present 0x3C 0 z

/-- SHR, two-register form: opcode 0x2D, irq 0 (rule R134). -/
def execShr (z : Bit) (s : State) : Host.Outcome State Fault Refusal := s.present 0x2D 0 z

/-- SHRC, constant form: opcode 0x3D, irq 0 (rule R135). -/
def execShrc (z : Bit) (s : State) : Host.Outcome State Fault Refusal := s.present 0x3D 0 z

/-- SRA, two-register form: opcode 0x2E, irq 0 (rule R136). -/
def execSra (z : Bit) (s : State) : Host.Outcome State Fault Refusal := s.present 0x2E 0 z

/-- SRAC, constant form: opcode 0x3E, irq 0 (rule R137). -/
def execSrac (z : Bit) (s : State) : Host.Outcome State Fault Refusal := s.present 0x3E 0 z

end Sys2Proof.Machine
end

