-- ==== Sys2Proof/Machine/Builder.lean ====
section
/-! DEFINITION. The block's own operations (41_builder.md). -/

namespace Sys2Proof.Machine

/-- CREATE (rules R29, R87; log 1). -/
def execCreate (s : State) : Host.Outcome State Fault Refusal := s.create

/-- PROGRAM (rules R89 to R91). -/
def execProgram (opcode z irq : Nat) (F : FieldConfig) (s : State) : Host.Outcome State Fault Refusal :=
  s.program opcode z irq F

/-- SEAL (rule R92). -/
def execSealImage (s : State) : Host.Outcome State Fault Refusal := s.sealImage

/-- READ (rules R93, R94). -/
def execRead (a : Nat) (s : State) : Host.Outcome State Fault Refusal := s.read a

/-- LOOKUP, the read port (rule R95). -/
def execLookup (opcode : Opcode) (irq z : Bit) (s : State) : Host.Outcome State Fault Refusal := s.present opcode irq z

/-- UNPACK: total on every word, reads no state, defined in every phase (rules R29, R96). -/
def execUnpack (w : ControlWord) (s : State) : Host.Outcome State Fault Refusal :=
  .next (s.withOutput (.fields (unpack w)))

end Sys2Proof.Machine
end

