-- ==== Sys2Proof/Machine/Control.lean ====
section
/-! DEFINITION. The branch, load and jump rows (44_branch_load_jump.md). Each presents its own address at the read port, as the
arithmetic/logic rows do. How a target or a load address is computed is outside the block (rule R6). -/

namespace Sys2Proof.Machine

/-- BEQ: opcode 0x1C, irq 0 (rule R140). Its word is the only kind that depends on zero (rules R79, R138). -/
def execBeq (z : Bit) (s : State) : Host.Outcome State Fault Refusal := s.present 0x1C 0 z

/-- BNE: opcode 0x1D, irq 0, the same pair of words as BEQ (rules R139, R141). -/
def execBne (z : Bit) (s : State) : Host.Outcome State Fault Refusal := s.present 0x1D 0 z

/-- LDR: opcode 0x1F, irq 0 (rule R143). -/
def execLdr (z : Bit) (s : State) : Host.Outcome State Fault Refusal := s.present 0x1F 0 z

/-- JMP: opcode 0x1B, irq 0 (rule R145). -/
def execJmp (z : Bit) (s : State) : Host.Outcome State Fault Refusal := s.present 0x1B 0 z

end Sys2Proof.Machine
end

