-- ==== Sys2Proof/Machine/Trap.lean ====
section
/-! DEFINITION. The two processor-level exceptional rows the ROM encodes (rule R154). The block's part of trap entry is the word
it outputs (rule R157); the processor's part is outside it (rule R6). -/

namespace Sys2Proof.Machine

/-- The interrupt row: any opcode and any zero with irq 1, which takes priority over every other row (rules R104, R155,
R156). -/
def execIrq (opcode : Opcode) (z : Bit) (s : State) : Host.Outcome State Fault Refusal := s.present opcode 1 z

/-- The illegal-instruction default row: irq 0 and an opcode no class rule programs (rules R80, R102). -/
def execIllegal (opcode : Opcode) (z : Bit) (s : State) : Host.Outcome State Fault Refusal := s.present opcode 0 z

end Sys2Proof.Machine
end

