-- ==== Sys2Proof/Machine/Dispatch.lean ====
section
/-! DEFINITION. One arm per instruction: the direct call of its meaning. -/

namespace Sys2Proof.Machine

def exec (i : Instr) (s : State) : Host.Outcome State Fault Refusal :=
  match i with
  | .irq opcode z => Sys2Proof.Machine.execIrq opcode z s
  | .add z => Sys2Proof.Machine.execAdd z s
  | .addc z => Sys2Proof.Machine.execAddc z s
  | .sub z => Sys2Proof.Machine.execSub z s
  | .subc z => Sys2Proof.Machine.execSubc z s
  | .mul z => Sys2Proof.Machine.execMul z s
  | .mulc z => Sys2Proof.Machine.execMulc z s
  | .cmpeq z => Sys2Proof.Machine.execCmpeq z s
  | .cmpeqc z => Sys2Proof.Machine.execCmpeqc z s
  | .cmplt z => Sys2Proof.Machine.execCmplt z s
  | .cmpltc z => Sys2Proof.Machine.execCmpltc z s
  | .cmple z => Sys2Proof.Machine.execCmple z s
  | .cmplec z => Sys2Proof.Machine.execCmplec z s
  | .and z => Sys2Proof.Machine.execAnd z s
  | .andc z => Sys2Proof.Machine.execAndc z s
  | .or z => Sys2Proof.Machine.execOr z s
  | .orc z => Sys2Proof.Machine.execOrc z s
  | .xor z => Sys2Proof.Machine.execXor z s
  | .xorc z => Sys2Proof.Machine.execXorc z s
  | .xnor z => Sys2Proof.Machine.execXnor z s
  | .xnorc z => Sys2Proof.Machine.execXnorc z s
  | .shl z => Sys2Proof.Machine.execShl z s
  | .shlc z => Sys2Proof.Machine.execShlc z s
  | .shr z => Sys2Proof.Machine.execShr z s
  | .shrc z => Sys2Proof.Machine.execShrc z s
  | .sra z => Sys2Proof.Machine.execSra z s
  | .srac z => Sys2Proof.Machine.execSrac z s
  | .beq z => Sys2Proof.Machine.execBeq z s
  | .bne z => Sys2Proof.Machine.execBne z s
  | .ldr z => Sys2Proof.Machine.execLdr z s
  | .jmp z => Sys2Proof.Machine.execJmp z s
  | .illegal opcode z => Sys2Proof.Machine.execIllegal opcode z s
  | .create => Sys2Proof.Machine.execCreate s
  | .program opcode z irq F => Sys2Proof.Machine.execProgram opcode z irq F s
  | .sealImage => Sys2Proof.Machine.execSealImage s
  | .read a => Sys2Proof.Machine.execRead a s
  | .lookup opcode irq z => Sys2Proof.Machine.execLookup opcode irq z s
  | .unpack w => Sys2Proof.Machine.execUnpack w s

end Sys2Proof.Machine
end

