-- ==== Sys2Proof/Machine/Image.lean ====
section
/-! DEFINITION. The closed form of the finished image (rule R109), for the reference build and for any `aluOrder`. -/

namespace Sys2Proof.Machine

/-- `ALUFN(k)`, the ALU function code at the low four opcode bits; none at 0x3, 0x7, 0xB and 0xF (rule R109). -/
def aluFn (k : BitVec 4) : Option (BitVec 5) :=
  match k.toNat with
  | 0x0 => some 0b00000
  | 0x1 => some 0b00001
  | 0x2 => some 0b00010
  | 0x4 => some 0b00101
  | 0x5 => some 0b00111
  | 0x6 => some 0b01101
  | 0x8 => some 0b11000
  | 0x9 => some 0b11110
  | 0xA => some 0b11001
  | 0xC => some 0b01000
  | 0xD => some 0b01001
  | 0xE => some 0b01011
  | _ => none

/-- A two-register or constant word: `base | fn << 4` (rules R109, R110). -/
def aluWord (base : ControlWord) (fn : BitVec 5) : ControlWord := base ||| (fn.setWidth 17 <<< 4)

/-- The arithmetic/logic word of an opcode in the reference image (rule R109): 0x00205 in the two-register block, 0x00A05 in
the constant block. -/
def aluWordAt (opcode : Opcode) : Option ControlWord :=
  if opcode.extractLsb' 4 2 = 0b10 then (aluFn (opcode.extractLsb' 0 4)).map (aluWord 0x00205)
  else if opcode.extractLsb' 4 2 = 0b11 then (aluFn (opcode.extractLsb' 0 4)).map (aluWord 0x00A05)
  else none

/-- The closed form with the arithmetic/logic words given as a function of the opcode: interrupt first, then the class words,
then the illegal default (rules R109, R156). -/
def imageWord (alu : Option ControlWord) (opcode : Opcode) (irq z : Bit) : ControlWord :=
  if irq = 1 then 0x10007
  else if opcode = 0x1B then 0x08005
  else if opcode = 0x1C ∨ opcode = 0x1D then (if z = 0 then 0x04005 else 0x00005)
  else if opcode = 0x1F then 0x015A5
  else alu.getD 0x0C007

/-- `finalWord(a)`, the word of the sealed reference image at an address (rule R109). -/
def finalWord (a : Address) : ControlWord :=
  imageWord (aluWordAt (addressOpcode a)) (addressOpcode a) (addressIrq a) (addressZero a)

/-- The arithmetic/logic word an order of instantiations leaves at an opcode: the last instantiation that programs the opcode
wins, and within one the constant form (rules R107, R110, R111). -/
def aluWordFor (order : List AluEntry) (opcode : Opcode) : Option ControlWord :=
  order.foldl (fun found e =>
    if opcode.toNat = e.base ||| 0b10000 then some (pack (aluConfig e.fn 1))
    else if opcode.toNat = e.base then some (pack (aluConfig e.fn 0))
    else found) none

/-- The word at an address after a build with the given `aluOrder` (rules R107, R109, R111). -/
def finalWordFor (order : List AluEntry) (a : Address) : ControlWord :=
  imageWord (aluWordFor order (addressOpcode a)) (addressOpcode a) (addressIrq a) (addressZero a)

/-- The ROM of the sealed reference image, in canonical form: no word of it is 0 (rules R38, R109). -/
def referenceRom : Memory := allAddresses.map fun a => (a.toNat, finalWord a)

/-- What the reference build's SEAL leaves, with the surroundings of `s` kept (rule R37, third column). -/
def State.withReferenceImage (s : State) : State :=
  { s with
    rom := referenceRom
    written := Vector.replicate 256 true
    phase := some .sealed
    stepIndex := 316 }

end Sys2Proof.Machine
end

