-- ==== Sys2Proof/Machine/Step.lean ====
section
/-! DEFINITION. One step of the machine, and how an address is placed before it. -/

namespace Sys2Proof.Machine

/-- One step (log 3): the first operation still waiting is carried out; when none waits, the address at the read port's
inputs is decoded and its row carried out. -/
def step (s : State) : Host.Outcome State Fault Refusal :=
  match s.pending with
  | i :: rest => exec i (s.withPending rest)
  | [] => exec (decodeAddress s.portAddress) s

/-- Place an opcode-table word as the address of the next step: no operation waits, and the word's bits are the read port's
inputs. A read needs a sealed image (rule R172), so unless `s` is sealed the reference build is completed (log 13). -/
def State.withFetchWord (s : State) (nbits w : Nat) : State :=
  let a : Address := BitVec.ofNat 8 (w % 2 ^ nbits)
  { (if s.phase = some .sealed then s else s.withReferenceImage) with
    pending := []
    portOpcode := addressOpcode a
    portIrq := addressIrq a
    portZ := addressZero a }

end Sys2Proof.Machine
end

