-- ==== Sys2Proof/Machine/Dump.lean ====
section
/-! DEFINITION. The artifact and the dump: pure functions of a sealed image (rules R38, R43, R99), and the text rows of rule R86. -/

namespace Sys2Proof.Machine

/-- The artifact: the 256 words in ascending address order. Only a sealed image is one (rules R38, R43, R150, R169). -/
def State.artifact (s : State) : Option (List ControlWord) :=
  if s.phase = some .sealed then some (allAddresses.map fun a => s.rom.read a.toNat) else none

/-- One record of the debug and verification dump (rule R99). -/
structure DumpRow where
  opcode : Opcode
  zero   : Bit
  irq    : Bit
  fields : FieldConfig
deriving DecidableEq, Repr

/-- The dump's record of an address that holds `w` (rule R99). -/
def dumpRow (a : Address) (w : ControlWord) : DumpRow where
  opcode := addressOpcode a
  zero := addressZero a
  irq := addressIrq a
  fields := unpack w

/-- The dump: one record per address, ascending (rule R99). -/
def State.dump (s : State) : Option (List DumpRow) :=
  if s.phase = some .sealed then some (allAddresses.map fun a => dumpRow a (s.rom.read a.toNat)) else none

/-- One upper-case hexadecimal digit (rule R86). -/
def hexDigit (n : Nat) : Char :=
  ['0', '1', '2', '3', '4', '5', '6', '7', '8', '9', 'A', 'B', 'C', 'D', 'E', 'F'].getD (n % 16) '?'

/-- A word as five upper-case hexadecimal digits without a prefix (rule R86). -/
def hexWord (w : ControlWord) : String :=
  String.ofList ([4, 3, 2, 1, 0].map fun k => hexDigit (w.toNat >>> (4 * k)))

/-- The display of an image: rows of eight words in ascending order, each with the address of its first word (rule R86).
Presentation only: nothing of the model rests on it. -/
def displayRows (words : List ControlWord) : List (Nat × List String) :=
  (List.range ((words.length + 7) / 8)).map fun r => (8 * r, ((words.drop (8 * r)).take 8).map hexWord)

end Sys2Proof.Machine
end

