-- ==== Sys2Proof/Safety.lean ====
section
/-! DEFINITION. What a good state is, and running a list of operations: the terms the statements use. -/

namespace Sys2Proof.Machine

/-- The invariant of the block. The ROM is in canonical form (R21); an address no PROGRAM has written holds 0 (R23); a sealed
image has every address written (R92, R108). -/
def State.Inv (s : State) : Prop :=
  s.rom.wf ∧
  (∀ a : Address, s.isWritten a = false → s.rom.read a.toNat = 0) ∧
  (s.phase = some .sealed → ∀ a : Address, s.isWritten a = true)

/-- The image of the reference build, sealed: every address holds the word of rule R109. -/
def State.ReferenceImage (s : State) : Prop :=
  s.phase = some .sealed ∧ ∀ a : Address, s.rom.read a.toNat = finalWord a

/-- Carry out a list of operations in order, stopping at the first fault or refusal (rules R17, R52). -/
def runOps : List Instr → State → Host.Outcome State Fault Refusal
  | [], s => .next s
  | i :: rest, s =>
    match exec i s with
    | .next t => runOps rest t
    | .fault f => .fault f
    | .refused r => .refused r

/-- A PROGRAM operation. -/
def isProgram : Instr → Bool
  | .program _ _ _ _ => true
  | _ => false

end Sys2Proof.Machine
end

