-- ==== Sys2Proof/Certificates/Slice0/Obligations.lean ====
section
/-! DEFINITION. The statements for the provers. Each docstring names the rule of the spec it formalises, and the log entry where
a clause rests on a choice of the model. -/

open Sys2Proof Sys2Proof.Machine

/-! ## Reset, and one step -/

/-- R37, R168: at reset every word is 0, no address is written, the phase is Building and the step 0, and that is what CREATE
leaves, whatever stood there before: only the waiting operations, the port's inputs and the last answer are kept. That State.reset
is the state after CREATE is log 4. -/
def Obligations.ResetIsWhatCreateLeaves : Prop :=
  (∀ a : Address, State.reset.rom.read a.toNat = 0) ∧
  (∀ a : Address, State.reset.isWritten a = false) ∧
  State.reset.phase = some .building ∧ State.reset.stepIndex = 0 ∧
  ∀ s : State, s.phase = none →
    exec .create s = .next
      { State.reset with
        pending := s.pending, portOpcode := s.portOpcode, portIrq := s.portIrq, portZ := s.portZ, output := s.output }

/-- The invariant of the block holds at reset. -/
def Obligations.ResetSatisfiesTheInvariant : Prop := State.reset.Inv

/-- R29, R87: where there is no image yet, CREATE completes and gives a zero image, no written address, phase Building, step 0, and
changes nothing else. -/
def Obligations.CreateMakesAnEmptyImage : Prop :=
  ∀ s : State, s.phase = none → ∃ t, exec .create s = .next t ∧
    (∀ a, t.rom.read a = 0) ∧ (∀ a : Address, t.isWritten a = false) ∧ t.phase = some .building ∧ t.stepIndex = 0 ∧
    t.pending = s.pending ∧ t.portOpcode = s.portOpcode ∧ t.portIrq = s.portIrq ∧ t.portZ = s.portZ ∧
    t.output = s.output

/-- R29, R159, R161 (D1): once an image exists, CREATE faults, in each of the phases Building, Sealed and Aborted. That it faults
in phase Building too, and the fault's name, are log 1. -/
def Obligations.CreateWhereAnImageExistsFaults : Prop :=
  ∀ (s : State) (p : Phase), s.phase = some p → exec .create s = .fault (.createOverImage p)

/-- R29: before CREATE no operation but CREATE and UNPACK has a transition: PROGRAM, SEAL, READ, LOOKUP and every address row fault.
The fault's name is log 1. -/
def Obligations.OperationsBeforeCreateFault : Prop :=
  ∀ (s : State) (i : Instr), s.phase = none → i ≠ .create → (∀ w, i ≠ .unpack w) → exec i s = .fault .noImage

/-- R95, R100: a step carries out the first waiting operation; when none waits it runs the row that the presented address decodes
to. The order of the two is log 3. -/
def Obligations.StepRunsTheDecodedRow : Prop :=
  (∀ (s : State) (i : Instr), s.pending = [] → decodeAddress (formAddress s.portOpcode s.portIrq s.portZ) = i →
    step s = exec i s) ∧
  (∀ (s : State) (i : Instr) (rest : List Instr), s.pending = i :: rest → step s = exec i { s with pending := rest })

/-- R77: addresses written out bit by bit from the encoding column of the opcode table decode to their rows. -/
def Obligations.WrittenOutAddressesDecode : Prop :=
  decodeAddress 0b10000001 = .add 1 ∧ decodeAddress 0b11000000 = .addc 0 ∧ decodeAddress 0b10111001 = .sra 1 ∧
  decodeAddress 0b10101000 = .xnor 0 ∧ decodeAddress 0b01110001 = .beq 1 ∧ decodeAddress 0b01110100 = .bne 0 ∧
  decodeAddress 0b01111101 = .ldr 1 ∧ decodeAddress 0b01101100 = .jmp 0 ∧ decodeAddress 0b11111111 = .irq 0x3F 1 ∧
  decodeAddress 0b01111000 = .illegal 0x1E 0

/-! ## The two encodings -/

/-- R59: the address is `(opcode << 2) | (irq << 1) | zero`. -/
def Obligations.AddressFollowsTheFormula : Prop :=
  ∀ (opcode : Opcode) (irq z : Bit),
    (formAddress opcode irq z).toNat = (opcode.toNat <<< 2) ||| (irq.toNat <<< 1) ||| z.toNat

/-- R60: opcode, irq and zero are bits 7 to 2, 1 and 0, and splitting is the exact inverse of forming. -/
def Obligations.AddressSplitsBackExactly : Prop :=
  (∀ a : Address, (addressOpcode a).toNat = a.toNat / 4 ∧ (addressIrq a).toNat = a.toNat / 2 % 2 ∧
    (addressZero a).toNat = a.toNat % 2) ∧
  (∀ (opcode : Opcode) (irq z : Bit), addressOpcode (formAddress opcode irq z) = opcode ∧
    addressIrq (formAddress opcode irq z) = irq ∧ addressZero (formAddress opcode irq z) = z) ∧
  (∀ a : Address, formAddress (addressOpcode a) (addressIrq a) (addressZero a) = a)

/-- R61: inside the legal ranges the formula is the sum, outside it aliases, and PROGRAM refuses the alias. -/
def Obligations.FormedNumberIsTheSumAndAliases : Prop :=
  (∀ opcode irq z : Nat, opcode < 64 → irq < 2 → z < 2 → formedNumber opcode irq z = 4 * opcode + 2 * irq + z) ∧
  formedNumber 0 0 2 = formedNumber 0 1 0 ∧
  (∀ (s : State) (F : FieldConfig), s.phase = some .building →
    exec (.program 0 2 0 F) s = .next { s with phase := some (.aborted (.addressOutOfRange 0 0 2 2)) })

/-- R63: offsets, widths, masks and defaults of the ten fields, and the OR of the masks. -/
def Obligations.FieldLayoutMatchesTheTable : Prop :=
  (Field.all.map fun f => (f, f.offset, f.width, f.mask, ({} : FieldConfig).get f)) =
    [(.moe, 0, 1, 0x00001, 1), (.wasel, 1, 1, 0x00002, 0), (.werf, 2, 1, 0x00004, 0), (.wr, 3, 1, 0x00008, 0),
     (.alufn, 4, 5, 0x001F0, 0), (.wdsel, 9, 2, 0x00600, 0), (.bsel, 11, 1, 0x00800, 0), (.asel, 12, 1, 0x01000, 0),
     (.ra2sel, 13, 1, 0x02000, 0), (.pcsel, 14, 3, 0x1C000, 0)] ∧
  (Field.all.foldl (fun w f => w ||| f.mask) 0 = 0x1FFFF)

/-- R62: every bit from 0 to 16 belongs to exactly one field, and no field reaches bit 17. -/
def Obligations.FieldsTileTheWord : Prop :=
  (∀ i < 17, ∃ f : Field, (f.offset ≤ i ∧ i < f.offset + f.width) ∧
    ∀ g : Field, g.offset ≤ i ∧ i < g.offset + g.width → g = f) ∧
  (∀ f : Field, f.offset + f.width ≤ 17)

/-- R66 (and R97): unpacking is `(w >> offset) & mask(width)` for each field, and packing and unpacking are exact inverses. -/
def Obligations.UnpackIsTheExactInverseOfPack : Prop :=
  (∀ (w : ControlWord) (f : Field), (unpack w).get f = (w.toNat >>> f.offset) &&& (2 ^ f.width - 1)) ∧
  (∀ F : FieldConfig, F.Fits → unpack (pack F) = F) ∧
  (∀ w : ControlWord, pack (unpack w) = w)

/-- R22 (with R23, R90): whatever operations follow CREATE, every word held in `rom` is below 2^17 and each field of it below
2^width, because the word is 0 at an address no PROGRAM has written, and elsewhere unpacks to exactly the fields of a PROGRAM
of that address among the operations, validated. -/
def Obligations.EveryWordHoldsValidatedFields : Prop :=
  ∀ (ops : List Instr) (s t : State), s.phase = none → runOps (.create :: ops) s = .next t → ∀ a : Address,
    (t.rom.read a.toNat).toNat < 2 ^ 17 ∧
    (∀ f : Field, (unpack (t.rom.read a.toNat)).get f < 2 ^ f.width) ∧
    ((t.isWritten a = false ∧ t.rom.read a.toNat = 0) ∨
      ∃ opcode z irq F, .program opcode z irq F ∈ ops ∧ opcode < 64 ∧ irq < 2 ∧ z < 2 ∧ 4 * opcode + 2 * irq + z = a.toNat ∧
        t.isWritten a = true ∧ (∀ f : Field, F.get f < 2 ^ f.width) ∧ unpack (t.rom.read a.toNat) = F)

/-- R77, R80, R82: decoding the encoded address of a well-formed row gives the row back, but for XOR and XORC, whose addresses
are XNOR's and XNORC's. -/
def Obligations.DecodeOfEncodeIsTheRow : Prop :=
  (∀ (i : Instr) (a : Address), i.wellFormed = true → encode i = some a →
    (∀ z, i ≠ .xor z) → (∀ z, i ≠ .xorc z) → decodeAddress a = i) ∧
  (∀ (z : Bit) (a : Address), encode (.xor z) = some a → decodeAddress a = .xnor z) ∧
  (∀ (z : Bit) (a : Address), encode (.xorc z) = some a → decodeAddress a = .xnorc z)

/-- R83: every address decodes to a well-formed row whose encoding is that address. -/
def Obligations.EncodeOfDecodeIsTheAddress : Prop :=
  ∀ a : Address, (decodeAddress a).wellFormed = true ∧ encode (decodeAddress a) = some a

/-- R80, R102: an address is an ILLEGAL row exactly when irq is 0 and its opcode is one of the 36 that no class rule programs, and
exactly then the reference image holds the illegal-instruction word there. -/
def Obligations.IllegalRowsAreExactlyTheUnprogrammed : Prop :=
  ∀ a : Address,
    (decodeAddress a = .illegal (addressOpcode a) (addressZero a) ↔ addressIrq a = 0 ∧ addressOpcode a ∈ illegalOpcodes) ∧
    (finalWord a = 0x0C007 ↔ addressIrq a = 0 ∧ addressOpcode a ∈ illegalOpcodes)

/-! ## The address rows -/

/-- R14, R95: every address row (IRQ, the 26 arithmetic/logic rows, BEQ, BNE, LDR, JMP, ILLEGAL) completes on every sealed image,
whatever its contents: it answers the word at the row's address and its fields, and changes nothing else. -/
def Obligations.EveryAddressRowAnswersItsWord : Prop :=
  ∀ (i : Instr) (a : Address) (s : State), encode i = some a → s.phase = some .sealed →
    exec i s = .next { s with output := .port (s.rom.read a.toNat) (unpack (s.rom.read a.toNat)) }

/-- R112 to R136, even: the two-register rows in the reference image. XOR's address holds XNOR's word. -/
def Obligations.TwoRegisterRowsAnswerTheirWords : Prop :=
  ∀ (s : State) (z : Bit), s.ReferenceImage →
    exec (.add z) s = .next { s with output := .port 0x00205 (aluConfig 0b00000 0) } ∧
    exec (.sub z) s = .next { s with output := .port 0x00215 (aluConfig 0b00001 0) } ∧
    exec (.mul z) s = .next { s with output := .port 0x00225 (aluConfig 0b00010 0) } ∧
    exec (.cmpeq z) s = .next { s with output := .port 0x00255 (aluConfig 0b00101 0) } ∧
    exec (.cmplt z) s = .next { s with output := .port 0x00275 (aluConfig 0b00111 0) } ∧
    exec (.cmple z) s = .next { s with output := .port 0x002D5 (aluConfig 0b01101 0) } ∧
    exec (.and z) s = .next { s with output := .port 0x00385 (aluConfig 0b11000 0) } ∧
    exec (.or z) s = .next { s with output := .port 0x003E5 (aluConfig 0b11110 0) } ∧
    exec (.xor z) s = .next { s with output := .port 0x00395 (aluConfig 0b11001 0) } ∧
    exec (.xnor z) s = .next { s with output := .port 0x00395 (aluConfig 0b11001 0) } ∧
    exec (.shl z) s = .next { s with output := .port 0x00285 (aluConfig 0b01000 0) } ∧
    exec (.shr z) s = .next { s with output := .port 0x00295 (aluConfig 0b01001 0) } ∧
    exec (.sra z) s = .next { s with output := .port 0x002B5 (aluConfig 0b01011 0) }

/-- R113 to R137, odd: the constant rows in the reference image. XORC's address holds XNORC's word. -/
def Obligations.ConstantRowsAnswerTheirWords : Prop :=
  ∀ (s : State) (z : Bit), s.ReferenceImage →
    exec (.addc z) s = .next { s with output := .port 0x00A05 (aluConfig 0b00000 1) } ∧
    exec (.subc z) s = .next { s with output := .port 0x00A15 (aluConfig 0b00001 1) } ∧
    exec (.mulc z) s = .next { s with output := .port 0x00A25 (aluConfig 0b00010 1) } ∧
    exec (.cmpeqc z) s = .next { s with output := .port 0x00A55 (aluConfig 0b00101 1) } ∧
    exec (.cmpltc z) s = .next { s with output := .port 0x00A75 (aluConfig 0b00111 1) } ∧
    exec (.cmplec z) s = .next { s with output := .port 0x00AD5 (aluConfig 0b01101 1) } ∧
    exec (.andc z) s = .next { s with output := .port 0x00B85 (aluConfig 0b11000 1) } ∧
    exec (.orc z) s = .next { s with output := .port 0x00BE5 (aluConfig 0b11110 1) } ∧
    exec (.xorc z) s = .next { s with output := .port 0x00B95 (aluConfig 0b11001 1) } ∧
    exec (.xnorc z) s = .next { s with output := .port 0x00B95 (aluConfig 0b11001 1) } ∧
    exec (.shlc z) s = .next { s with output := .port 0x00A85 (aluConfig 0b01000 1) } ∧
    exec (.shrc z) s = .next { s with output := .port 0x00A95 (aluConfig 0b01001 1) } ∧
    exec (.srac z) s = .next { s with output := .port 0x00AB5 (aluConfig 0b01011 1) }

/-- R139 to R141: BEQ and BNE answer the same pair of words, taken at zero = 0 and not taken at zero = 1. -/
def Obligations.BranchRowsAnswerByTheZeroBit : Prop :=
  ∀ s : State, s.ReferenceImage →
    exec (.beq 0) s = .next { s with output := .port 0x04005 { werf := 1, pcsel := 1 } } ∧
    exec (.beq 1) s = .next { s with output := .port 0x00005 { werf := 1, pcsel := 0 } } ∧
    exec (.bne 0) s = .next { s with output := .port 0x04005 { werf := 1, pcsel := 1 } } ∧
    exec (.bne 1) s = .next { s with output := .port 0x00005 { werf := 1, pcsel := 0 } }

/-- R143, R145: LDR and JMP answer their words at both zero values. -/
def Obligations.LoadAndJumpRowsAnswerTheirWords : Prop :=
  ∀ (s : State) (z : Bit), s.ReferenceImage →
    exec (.ldr z) s = .next { s with output := .port 0x015A5 { werf := 1, alufn := 26, wdsel := 2, asel := 1 } } ∧
    exec (.jmp z) s = .next { s with output := .port 0x08005 { werf := 1, pcsel := 2 } }

/-- R102, R104, R156: with irq = 1 every opcode answers the interrupt word; with irq = 0 each of the 36 unprogrammed opcodes
answers the illegal-instruction word. -/
def Obligations.TrapRowsAnswerTheirWords : Prop :=
  ∀ (s : State) (opcode : Opcode) (z : Bit), s.ReferenceImage →
    exec (.irq opcode z) s = .next { s with output := .port 0x10007 { werf := 1, wasel := 1, pcsel := 4 } } ∧
    (opcode ∈ illegalOpcodes →
      exec (.illegal opcode z) s = .next { s with output := .port 0x0C007 { werf := 1, wasel := 1, pcsel := 3 } })

/-! ## Reading -/

/-- R93, R95: in phase Sealed READ answers the word at any address below 256, and LOOKUP the word at the formed address with its
fields; nothing else changes. -/
def Obligations.ReadAndLookupAnswerTheWord : Prop :=
  ∀ s : State, s.phase = some .sealed →
    (∀ a < 256, exec (.read a) s = .next { s with output := .word (s.rom.read a) }) ∧
    (∀ (opcode : Opcode) (irq z : Bit),
      exec (.lookup opcode irq z) s =
        .next { s with
          output := .port (s.rom.read (4 * opcode.toNat + 2 * irq.toNat + z.toNat))
            (unpack (s.rom.read (4 * opcode.toNat + 2 * irq.toNat + z.toNat))) })

/-- R94, R172 and R93: in phase Building READ, LOOKUP and every address row fault; a READ of 256 or more in phase Sealed faults. -/
def Obligations.ReadsBeforeSealOrOutOfRangeFault : Prop :=
  (∀ (s : State) (a : Nat), s.phase = some .building → exec (.read a) s = .fault (.readBeforeBuildComplete a)) ∧
  (∀ (s : State) (opcode : Opcode) (irq z : Bit), s.phase = some .building →
    exec (.lookup opcode irq z) s = .fault (.readBeforeBuildComplete (4 * opcode.toNat + 2 * irq.toNat + z.toNat))) ∧
  (∀ (s : State) (i : Instr) (a : Address), s.phase = some .building → encode i = some a →
    exec i s = .fault (.readBeforeBuildComplete a.toNat)) ∧
  (∀ (s : State) (a : Nat), s.phase = some .sealed → 256 ≤ a → exec (.read a) s = .fault (.readOutOfRange a))

/-- R96, R29: UNPACK answers the ten fields of any word in every phase and changes nothing else. -/
def Obligations.UnpackAnswersInEveryPhase : Prop :=
  ∀ (s : State) (w : ControlWord), ∃ F : FieldConfig,
    exec (.unpack w) s = .next { s with output := .fields F } ∧
    ∀ f : Field, F.get f = (w.toNat >>> f.offset) % 2 ^ f.width

/-- R48, R178: what the presented inputs answer depends on them and the sealed image alone, and the presentation changes nothing
but the answer: two sealed machines that read alike and see the same inputs answer alike. -/
def Obligations.PortAnswerDependsOnInputsAndImageOnly : Prop :=
  ∀ s t : State, s.phase = some .sealed → t.phase = some .sealed → s.pending = [] → t.pending = [] →
    s.portOpcode = t.portOpcode → s.portIrq = t.portIrq → s.portZ = t.portZ →
    (∀ a : Address, s.rom.read a.toNat = t.rom.read a.toNat) →
    ∃ o, step s = .next { s with output := o } ∧ step t = .next { t with output := o }

/-! ## PROGRAM -/

/-- R46: PROGRAM replaces the whole word at its address by the packed fields, defaults for those not given, whatever the address
held; every other address, and everything but the mark and the step, stays. -/
def Obligations.ProgramReplacesTheWholeWord : Prop :=
  (∀ (s : State) (opcode z irq : Nat) (F : FieldConfig),
    s.phase = some .building → s.rom.wf → opcode < 64 → irq < 2 → z < 2 → F.Fits →
    ∃ t, exec (.program opcode z irq F) s = .next t ∧
      (∀ b, t.rom.read b = if b = 4 * opcode + 2 * irq + z then pack F else s.rom.read b) ∧
      (∀ b : Address, t.isWritten b = if b.toNat = 4 * opcode + 2 * irq + z then true else s.isWritten b) ∧
      t.stepIndex = s.stepIndex + 1 ∧ t.phase = some .building ∧ t.pending = s.pending ∧
      t.portOpcode = s.portOpcode ∧ t.portIrq = s.portIrq ∧ t.portZ = s.portZ ∧ t.output = s.output) ∧
  (∀ p < 8, unpack (pack { pcsel := p }) =
    { moe := 1, wasel := 0, werf := 0, wr := 0, alufn := 0, wdsel := 0, bsel := 0, asel := 0, ra2sel := 0, pcsel := p })

/-- R148, R153: a sub-field out of range raises AddressOutOfRange, whatever the fields; only the phase changes. -/
def Obligations.ProgramRaisesAddressOutOfRange : Prop :=
  ∀ (s : State) (opcode z irq : Nat) (F : FieldConfig),
    s.phase = some .building → 64 ≤ opcode ∨ 2 ≤ irq ∨ 2 ≤ z →
    exec (.program opcode z irq F) s =
      .next { s with
        phase := some (.aborted (.addressOutOfRange opcode irq z ((opcode <<< 2) ||| (irq <<< 1) ||| z))) }

/-- R147, R153: with the sub-fields in range, the field of lowest offset whose value needs more bits than its width is reported
with the address, its value and its width; only the phase changes. -/
def Obligations.ProgramRaisesFieldOverflow : Prop :=
  ∀ (s : State) (opcode z irq : Nat) (F : FieldConfig) (f : Field),
    s.phase = some .building → opcode < 64 → irq < 2 → z < 2 →
    2 ^ f.width ≤ F.get f → (∀ g : Field, g.offset < f.offset → F.get g < 2 ^ g.width) →
    exec (.program opcode z irq F) s =
      .next { s with
        phase := some (.aborted
          (.fieldOverflow (BitVec.ofNat 8 (4 * opcode + 2 * irq + z)) opcode irq z f (F.get f) f.width)) }

/-- R91: PROGRAM in phase Sealed or Aborted faults, whatever its operands. -/
def Obligations.ProgramOutsideBuildingFaults : Prop :=
  ∀ (s : State) (opcode z irq : Nat) (F : FieldConfig),
    (s.phase = some .sealed → exec (.program opcode z irq F) s = .fault (.writeAfterSeal opcode z irq)) ∧
    (∀ e, s.phase = some (.aborted e) → exec (.program opcode z irq F) s = .fault (.buildAborted e))

/-- R98: programming an address again is no error, and the image is as if only the last PROGRAM had run. -/
def Obligations.ReprogrammingKeepsTheLastWord : Prop :=
  ∀ (s : State) (opcode z irq : Nat) (F G : FieldConfig),
    s.phase = some .building → s.rom.wf → opcode < 64 → irq < 2 → z < 2 → F.Fits → G.Fits →
    ∃ t u, runOps [.program opcode z irq F, .program opcode z irq G] s = .next t ∧
      exec (.program opcode z irq G) s = .next u ∧
      t = { u with stepIndex := s.stepIndex + 2 }

/-! ## SEAL and the phases -/

/-- R92: SEAL of a complete image changes the phase to Sealed and nothing else. That `step` stays is log 2. -/
def Obligations.SealFinishesACompleteImage : Prop :=
  ∀ s : State, s.phase = some .building → (∀ a : Address, s.isWritten a = true) →
    exec .sealImage s = .next { s with phase := some .sealed }

/-- R152: SEAL of an incomplete image raises IncompleteImage with the least unwritten address; only the phase changes. -/
def Obligations.SealRaisesIncompleteImage : Prop :=
  ∀ (s : State) (a : Address), s.phase = some .building → s.isWritten a = false →
    (∀ b : Address, b.toNat < a.toNat → s.isWritten b = true) →
    exec .sealImage s = .next { s with phase := some (.aborted (.incompleteImage a)) }

/-- R29, R92: SEAL in phase Sealed has no effect; in phase Aborted it faults. -/
def Obligations.SealOutsideBuilding : Prop :=
  ∀ s : State, (s.phase = some .sealed → exec .sealImage s = .next s) ∧
    (∀ e, s.phase = some (.aborted e) → exec .sealImage s = .fault (.buildAborted e))

/-- R150, R151, R159: in phase Aborted every operation but UNPACK faults: PROGRAM, SEAL and the reads with the first error, CREATE
because the aborted image still stands (log 1). -/
def Obligations.AbortedBuildAnswersNothing : Prop :=
  ∀ (s : State) (e : BuildError) (i : Instr), s.phase = some (.aborted e) → (∀ w, i ≠ .unpack w) →
    exec i s = .fault (if i = .create then .createOverImage (.aborted e) else .buildAborted e)

/-- R19, R28, R159: an aborted build is terminal. However many steps run, the phase holds the same first error, nothing of the
image changes and there is no artifact. -/
def Obligations.AbortIsTerminal : Prop :=
  ∀ (n : Nat) (s t : State) (e : BuildError), s.phase = some (.aborted e) → Host.Core.run Sys2Proof.core n s = .next t →
    t.phase = some (.aborted e) ∧ t.rom = s.rom ∧ t.written = s.written ∧ t.stepIndex = s.stepIndex ∧ t.artifact = none

/-- R20, R40: only CREATE and PROGRAM change the image, the marks or the step, and no instruction changes the waiting operations or
the read port's inputs. -/
def Obligations.OnlyCreateAndProgramChangeTheImage : Prop :=
  ∀ (i : Instr) (s t : State), exec i s = .next t →
    (i ≠ .create → isProgram i = false → t.rom = s.rom ∧ t.written = s.written ∧ t.stepIndex = s.stepIndex) ∧
    t.pending = s.pending ∧ t.portOpcode = s.portOpcode ∧ t.portIrq = s.portIrq ∧ t.portZ = s.portZ

/-- R19, R38, R56, R164, R175: after SEAL the image is a constant. However many steps run, whatever operations wait, a sealed
machine stays sealed with the same image, marks, step and artifact. -/
def Obligations.SealedImageNeverChanges : Prop :=
  ∀ (n : Nat) (s t : State), s.phase = some .sealed → Host.Core.run Sys2Proof.core n s = .next t →
    t.rom = s.rom ∧ t.written = s.written ∧ t.phase = some .sealed ∧ t.stepIndex = s.stepIndex ∧ t.artifact = s.artifact

/-- R28, R29, R47: the transitions of the phase table. A phase changes only by CREATE at the start, by SEAL of a complete image, or by a build error
that PROGRAM or SEAL raises, which writes nothing. -/
def Obligations.PhaseChangesOnlyAsTheTableSays : Prop :=
  ∀ (i : Instr) (s t : State), exec i s = .next t → t.phase ≠ s.phase →
    (i = .create ∧ s.phase = none ∧ t.phase = some .building) ∨
    (i = .sealImage ∧ s.phase = some .building ∧ t.phase = some .sealed ∧ ∀ a : Address, s.isWritten a = true) ∨
    ((isProgram i = true ∨ i = .sealImage) ∧ s.phase = some .building ∧
      ∃ e, t.phase = some (.aborted e) ∧ t.rom = s.rom ∧ t.written = s.written ∧ t.stepIndex = s.stepIndex)

/-- R21 to R23, R92: every step keeps the invariant: the image in canonical form, unwritten addresses at 0, a sealed image with
every address written. -/
def Obligations.StepKeepsTheInvariant : Prop := ∀ s t : State, s.Inv → step s = .next t → t.Inv

/-! ## The encoder -/

/-- R110: ALUOp writes the two-register word at both zero values of the base opcode and the constant word at those of the base with
bit 4 set, and nothing else. -/
def Obligations.AluOpProgramsFourAddresses : Prop :=
  ∀ (s : State) (base fn : Nat), s.phase = some .building → s.rom.wf → base < 64 → base &&& 16 = 0 → fn < 32 →
    ∃ t, runOps (aluOp base fn) s = .next t ∧ t.phase = some .building ∧ t.stepIndex = s.stepIndex + 4 ∧
      (∀ z < 2, t.rom.read (4 * base + z) = 0x00205#17 ||| (BitVec.ofNat 17 fn <<< 4) ∧
        t.rom.read (4 * (base + 16) + z) = 0x00A05#17 ||| (BitVec.ofNat 17 fn <<< 4)) ∧
      (∀ b, (∀ z < 2, b ≠ 4 * base + z ∧ b ≠ 4 * (base + 16) + z) → t.rom.read b = s.rom.read b)

/-- R101, R103, R173: DefaultFill writes the illegal-instruction word at every irq = 0 address, InterruptOverride the interrupt
word at every irq = 1 address, whatever stood there, with no error, and neither touches the other half. -/
def Obligations.FillsOverwriteTheirHalf : Prop :=
  ∀ s : State, s.phase = some .building → s.rom.wf →
    (∃ t, runOps defaultFill s = .next t ∧ t.phase = some .building ∧ t.stepIndex = s.stepIndex + 128 ∧
      ∀ a : Address,
        t.rom.read a.toNat = (if addressIrq a = 0 then 0x0C007 else s.rom.read a.toNat) ∧
        t.isWritten a = (if addressIrq a = 0 then true else s.isWritten a)) ∧
    (∃ t, runOps interruptOverride s = .next t ∧ t.phase = some .building ∧ t.stepIndex = s.stepIndex + 128 ∧
      ∀ a : Address,
        t.rom.read a.toNat = (if addressIrq a = 1 then 0x10007 else s.rom.read a.toNat) ∧
        t.isWritten a = (if addressIrq a = 1 then true else s.isWritten a))

/-- R138, R142, R144: Branch, Load and Jump write the two irq = 0 addresses of their opcode and nothing else. -/
def Obligations.BranchLoadJumpProgramTwoAddresses : Prop :=
  ∀ (s : State) (op : Nat), s.phase = some .building → s.rom.wf → op < 64 →
    (∃ t, runOps (branchOp op) s = .next t ∧ t.phase = some .building ∧ t.stepIndex = s.stepIndex + 2 ∧
      ∀ b, t.rom.read b = if b = 4 * op then 0x04005 else if b = 4 * op + 1 then 0x00005 else s.rom.read b) ∧
    (∃ t, runOps (loadOp op) s = .next t ∧ t.phase = some .building ∧ t.stepIndex = s.stepIndex + 2 ∧
      ∀ b, t.rom.read b = if b = 4 * op ∨ b = 4 * op + 1 then 0x015A5 else s.rom.read b) ∧
    (∃ t, runOps (jumpOp op) s = .next t ∧ t.phase = some .building ∧ t.stepIndex = s.stepIndex + 2 ∧
      ∀ b, t.rom.read b = if b = 4 * op ∨ b = 4 * op + 1 then 0x08005 else s.rom.read b)

/-- R105: every instruction-class rule programs with irq = 0 only, so no irq = 1 address changes after InterruptOverride, in any
`aluOrder`; and in the reference image irq = 1 answers pcsel = 4 at every opcode and zero value. -/
def Obligations.ClassRulesNeverTouchInterruptAddresses : Prop :=
  (∀ (order : List AluEntry), ∀ i ∈ classOps order, ∃ opcode z F, i = .program opcode z 0 F) ∧
  (∀ (order : List AluEntry) (s : State), (∀ e ∈ order, e.base < 64 ∧ e.fn < 32) → s.phase = some .building → s.rom.wf →
    ∃ t, runOps (classOps order) s = .next t ∧
      ∀ a : Address, addressIrq a = 1 → t.rom.read a.toNat = s.rom.read a.toNat) ∧
  (∀ (s : State) (opcode : Opcode) (z : Bit), s.ReferenceImage →
    ∃ cw F, exec (.lookup opcode 1 z) s = .next { s with output := .port cw F } ∧ F.pcsel = 4)

/-- R79: the branch class programs `pcsel = 1 XOR zero`, and that is the only place where the zero bit changes a word: every other
rule of the encoder writes the same fields at both zero values of an opcode. So in a sealed reference image READ answers the
same word at both zero values of every address pair but BEQ's and BNE's. -/
def Obligations.ZeroBitChangesOnlyBranchWords : Prop :=
  (∀ op z irq o : Nat, ∀ F : FieldConfig, .program o z irq F ∈ branchOp op → F.pcsel = 1 ^^^ z) ∧ 1 ^^^ 0 = 1 ∧ 1 ^^^ 1 = 0 ∧
  (∀ ops : List Instr,
    ops = defaultFill ∨ ops = interruptOverride ∨ (∃ base fn, ops = aluOp base fn) ∨ (∃ op, ops = loadOp op) ∨
      (∃ op, ops = jumpOp op) →
    ∀ (opcode irq : Nat) (F : FieldConfig), .program opcode 0 irq F ∈ ops ↔ .program opcode 1 irq F ∈ ops) ∧
  (∀ (s : State) (opcode : Opcode) (irq : Bit), s.ReferenceImage → ¬ (irq = 0 ∧ (opcode = 0x1C ∨ opcode = 0x1D)) →
    ∃ w, exec (.read (formAddress opcode irq 0).toNat) s = .next { s with output := .word w } ∧
      exec (.read (formAddress opcode irq 1).toNat) s = .next { s with output := .word w })

/-- R109, R111, R107, for any `aluOrder` (D13, D30): from any unfinished build the encoder's sequence and SEAL end sealed, after
264 + 4 n PROGRAMs for n instantiations, and every address holds the word of the closed form in which the last instantiation
of an opcode wins. -/
def Obligations.AnyAluOrderBuildsItsClosedForm : Prop :=
  ∀ (order : List AluEntry) (s : State), (∀ e ∈ order, e.base < 64 ∧ e.fn < 32) → s.phase = some .building → s.rom.wf →
    ∃ t, runOps (encoderOps order ++ [.sealImage]) s = .next t ∧ t.phase = some .sealed ∧
      t.stepIndex = s.stepIndex + 264 + 4 * order.length ∧ (∀ a : Address, t.isWritten a = true) ∧
      ∀ a : Address, t.rom.read a.toNat = finalWordFor order a

/-- R100, R109, R37: from reset, 317 steps carry out the reference build and leave the image of the closed form, sealed, with
step 316. How the sequence waits at reset is log 3. -/
def Obligations.ReferenceRunReachesTheClosedForm : Prop :=
  ∃ t : State, Host.Core.run Sys2Proof.core 317 State.reset = .next t ∧
    t = { State.reset.withReferenceImage with pending := [] } ∧ t.ReferenceImage

/-- R26: after each of the first 316 steps from reset the sequencer position is the number of PROGRAMs done, and the rest of the
reference build waits (log 3). -/
def Obligations.SequencerPositionIndexesTheBuildList : Prop :=
  ∀ n ≤ 316, ∃ t : State, Host.Core.run Sys2Proof.core n State.reset = .next t ∧
    t.stepIndex = n ∧ t.phase = some .building ∧ t.pending = referenceBuild.drop n

/-- R26, R100: from any state in phase Building, stepping through waiting PROGRAMs that are all legal advances the sequencer by 1
for each, stays in Building and leaves the rest of the list waiting (log 3). -/
def Obligations.EachWaitingProgramAdvancesTheSequencer : Prop :=
  ∀ (ps rest : List Instr) (s : State), s.phase = some .building → s.pending = ps ++ rest →
    (∀ i ∈ ps, ∃ opcode z irq F, i = .program opcode z irq F ∧ opcode < 64 ∧ irq < 2 ∧ z < 2 ∧ F.Fits) →
    ∃ t, Host.Core.run Sys2Proof.core ps.length s = .next t ∧ t.stepIndex = s.stepIndex + ps.length ∧
      t.phase = some .building ∧ t.pending = rest

/-- R26: whatever the list of PROGRAMs, a build that ends sealed has advanced the step by the list's length (log 2). -/
def Obligations.SealedStepIsTheBuildListLength : Prop :=
  ∀ (ps : List Instr) (s t : State), (∀ i ∈ ps, isProgram i = true) → s.phase = some .building →
    runOps (ps ++ [.sealImage]) s = .next t → t.phase = some .sealed → t.stepIndex = s.stepIndex + ps.length

/-- R107: whatever the order in which the 13 instantiations run, only the words of opcodes 0x2A and 0x3A can differ. -/
def Obligations.OnlyTheCollisionDependsOnAluOrder : Prop :=
  ∀ (order : List AluEntry) (a : Address), order.Perm Config.aluOrder →
    addressOpcode a ≠ 0x2A → addressOpcode a ≠ 0x3A → finalWordFor order a = finalWord a

/-- R111, R128, R129: with XNOR before XOR the image changes at exactly four addresses, to XOR's and XORC's words; with the listed
order it is the reference image. -/
def Obligations.SwappedOrderChangesFourWords : Prop :=
  ∀ a : Address,
    finalWordFor Config.aluOrder a = finalWord a ∧
    finalWordFor (Config.aluOrder.take 8 ++ [⟨0b101010, 0b11001⟩, ⟨0b101010, 0b10110⟩] ++ Config.aluOrder.drop 10) a =
      if a = 0xA8 ∨ a = 0xA9 then 0x00365 else if a = 0xE8 ∨ a = 0xE9 then 0x00B65 else finalWord a

/-! ## The artifact and the dump -/

/-- R38, R99, R150: a sealed machine has an artifact of 256 words and a dump of 256 records, in ascending address order; an unsealed
one has neither. -/
def Obligations.ArtifactAndDumpListEveryAddress : Prop :=
  (∀ s : State, s.phase = some .sealed →
    ∃ words rows, s.artifact = some words ∧ s.dump = some rows ∧ words.length = 256 ∧ rows.length = 256 ∧
      ∀ a : Address, words[a.toNat]? = some (s.rom.read a.toNat) ∧
        rows[a.toNat]? = some
          { opcode := addressOpcode a, zero := addressZero a, irq := addressIrq a, fields := unpack (s.rom.read a.toNat) }) ∧
  (∀ s : State, s.phase ≠ some .sealed → s.artifact = none ∧ s.dump = none)
end

