-- ==== Sys2Proof/Laws/Memory.lean ====
section
/-! SUPPORT. The laws of the ROM image: read after write, and the canonical form, which every memory operation keeps. -/

namespace Sys2Proof.Machine

variable {m : Memory} {a b : Nat} {w v : ControlWord}

@[simp] theorem Memory.read_nil : Memory.read [] a = 0 := rfl

@[simp] theorem Memory.read_cons (c : Cell) (rest : Memory) :
    Memory.read (c :: rest) a = if a = c.1 then c.2 else Memory.read rest a := rfl

/-- An address that no cell lists reads as the zero fill. -/
theorem Memory.read_of_unlisted (h : ∀ c ∈ m, c.1 ≠ a) : m.read a = 0 := by
  induction m with
  | nil => rfl
  | cons c rest ih =>
    rw [Memory.read_cons, if_neg (fun e => h c (by simp) e.symm)]
    exact ih fun d hd => h d (by simp [hd])

/-- A cell put in front reads as given, and every other address as before. -/
theorem Memory.read_consCell (h : ∀ c ∈ m, c.1 ≠ b) :
    (Memory.cons b w m).read a = if a = b then w else m.read a := by
  unfold Memory.cons
  by_cases hw : w = Memory.unlisted
  · rw [if_pos hw]
    split
    · next e => rw [e, Memory.read_of_unlisted h, hw]; rfl
    · rfl
  · rw [if_neg hw, Memory.read_cons]

theorem Memory.wf_tail {c : Cell} (h : Memory.wf (c :: m)) : Memory.wf m :=
  ⟨(List.pairwise_cons.mp h.1).2, fun d hd => h.2 d (by simp [hd])⟩

theorem Memory.wf_head_lt {c : Cell} (h : Memory.wf (c :: m)) : ∀ d ∈ m, c.1 < d.1 :=
  (List.pairwise_cons.mp h.1).1

theorem Memory.wf_consCell (h : Memory.wf m) (ha : a < Config.romDepth) (hm : ∀ c ∈ m, a < c.1) :
    Memory.wf (Memory.cons a w m) := by
  unfold Memory.cons
  split
  · exact h
  · next hw =>
    refine ⟨List.pairwise_cons.mpr ⟨hm, h.1⟩, fun c hc => ?_⟩
    rcases List.mem_cons.mp hc with rfl | hc
    · exact ⟨ha, hw⟩
    · exact h.2 c hc

/-- The addresses a write lists are the old ones and the written one. -/
theorem Memory.mem_write {c : Cell} (h : c ∈ m.write a w) : c = (a, w) ∨ c ∈ m := by
  have hcons : ∀ {n : Memory}, c ∈ Memory.cons a w n → c = (a, w) ∨ c ∈ n := by
    intro n hn
    unfold Memory.cons at hn
    split at hn
    · exact .inr hn
    · exact List.mem_cons.mp hn
  induction m with
  | nil => exact hcons h
  | cons d rest ih =>
    unfold Memory.write at h
    split at h
    · exact hcons h
    · split at h
      · exact (hcons h).imp_right fun h => List.mem_cons_of_mem _ h
      · rcases List.mem_cons.mp h with rfl | h
        · exact .inr (by simp)
        · exact (ih h).imp_right fun h => List.mem_cons_of_mem _ h

/-- What a write does to every read: the written address reads as the word, every other as before. -/
theorem Memory.read_write (h : m.wf) : (m.write b w).read a = if a = b then w else m.read a := by
  induction m with
  | nil => exact Memory.read_consCell (by simp)
  | cons c rest ih =>
    unfold Memory.write
    split
    · next hlt =>
      refine Memory.read_consCell fun d hd => ?_
      rcases List.mem_cons.mp hd with rfl | hd
      · exact (Nat.ne_of_lt hlt).symm
      · have := Memory.wf_head_lt h d hd
        omega
    · split
      · next hb =>
        have hb : b = c.1 := hb
        rw [Memory.read_consCell fun d hd => by
          have := Memory.wf_head_lt h d hd
          omega, Memory.read_cons, ← hb]
        split <;> rfl
      · next hb =>
        have hb : b ≠ c.1 := hb
        simp only [Memory.read_cons, ih (Memory.wf_tail h)]
        split
        · next hc => rw [if_neg (by omega)]
        · rfl

/-- A write keeps the canonical form. -/
theorem Memory.wf_write (h : m.wf) (ha : a < Config.romDepth) : (m.write a w).wf := by
  induction m with
  | nil => exact Memory.wf_consCell h ha (by simp)
  | cons c rest ih =>
    unfold Memory.write
    split
    · next hlt =>
      refine Memory.wf_consCell h ha fun d hd => ?_
      rcases List.mem_cons.mp hd with rfl | hd
      · exact hlt
      · exact Nat.lt_trans hlt (Memory.wf_head_lt h d hd)
    · split
      · next hb =>
        refine Memory.wf_consCell (Memory.wf_tail h) ha fun d hd => ?_
        have hb : a = c.1 := hb
        rw [hb]
        exact Memory.wf_head_lt h d hd
      · have hne : ¬ a < c.1 := by assumption
        have hb : ¬ a = c.1 := by assumption
        refine ⟨List.pairwise_cons.mpr ⟨fun d hd => ?_, (ih (Memory.wf_tail h)).1⟩, fun d hd => ?_⟩
        · rcases Memory.mem_write hd with rfl | hd
          · show c.1 < a
            omega
          · exact Memory.wf_head_lt h d hd
        · rcases List.mem_cons.mp hd with rfl | hd
          · exact h.2 _ (by simp)
          · exact (ih (Memory.wf_tail h)).2 d hd

/-- The empty image is in canonical form. -/
theorem Memory.wf_nil : Memory.wf [] := ⟨List.Pairwise.nil, by simp⟩

/-- The image at reset is in canonical form. -/
theorem State.reset_rom_wf : State.reset.rom.wf := Memory.wf_nil

/-- In canonical form a listed address reads something other than the fill. -/
theorem Memory.read_ne_of_head {c : Cell} {rest : Memory} (h : Memory.wf (c :: rest)) :
    Memory.read (c :: rest) c.1 ≠ 0 := by
  rw [Memory.read_cons, if_pos rfl]
  exact (h.2 c (by simp)).2

/-- An address below every listed one reads as the fill. -/
theorem Memory.read_below (h : ∀ c ∈ m, a < c.1) : m.read a = 0 :=
  Memory.read_of_unlisted fun c hc => (Nat.ne_of_lt (h c hc)).symm

/-- Two images in canonical form that read alike are the same image. -/
theorem Memory.ext_of_read {n : Memory} (hm : m.wf) (hn : n.wf) (h : ∀ a, m.read a = n.read a) : m = n := by
  induction m generalizing n with
  | nil =>
    cases n with
    | nil => rfl
    | cons d ns => exact absurd (h d.1).symm (by simpa using Memory.read_ne_of_head hn)
  | cons c ms ih =>
    cases n with
    | nil => exact absurd (h c.1) (by simpa using Memory.read_ne_of_head hm)
    | cons d ns =>
      have hcd : c.1 = d.1 := by
        rcases Nat.lt_trichotomy c.1 d.1 with hlt | heq | hgt
        · refine absurd ((h c.1).trans (Memory.read_below fun e he => ?_)) (Memory.read_ne_of_head hm)
          rcases List.mem_cons.mp he with rfl | he
          · exact hlt
          · exact Nat.lt_trans hlt (Memory.wf_head_lt hn e he)
        · exact heq
        · refine absurd ((h d.1).symm.trans (Memory.read_below fun e he => ?_)) (Memory.read_ne_of_head hn)
          rcases List.mem_cons.mp he with rfl | he
          · exact hgt
          · exact Nat.lt_trans hgt (Memory.wf_head_lt hm e he)
      have hw : c.2 = d.2 := by simpa [hcd] using h c.1
      rw [Prod.ext hcd hw, ih (Memory.wf_tail hm) (Memory.wf_tail hn) fun a => ?_]
      by_cases ha : a = c.1
      · rw [Memory.read_below (m := ms), Memory.read_below (m := ns)]
        · exact fun e he => by have := Memory.wf_head_lt hn e he; omega
        · exact fun e he => by have := Memory.wf_head_lt hm e he; omega
      · have := h a
        rwa [Memory.read_cons, Memory.read_cons, if_neg ha, if_neg (hcd ▸ ha)] at this

/-- The last write of an address decides: the earlier one leaves no trace. -/
theorem Memory.write_write (h : m.wf) (ha : a < Config.romDepth) :
    (m.write a v).write a w = m.write a w := by
  have h1 := Memory.wf_write (w := v) h ha
  refine Memory.ext_of_read (Memory.wf_write h1 ha) (Memory.wf_write h ha) fun b => ?_
  rw [Memory.read_write h1, Memory.read_write h, Memory.read_write h]
  split <;> rfl

end Sys2Proof.Machine
end

