-- ==== Sys2Proof/Laws/State.lean ====
section
/-! SUPPORT. What each named update of the state does to each field: one lemma per field per update. -/

namespace Sys2Proof.Machine

variable (s : State)

@[simp] theorem State.withOutput_rom (o : Output) : (s.withOutput o).rom = s.rom := rfl
@[simp] theorem State.withOutput_written (o : Output) : (s.withOutput o).written = s.written := rfl
@[simp] theorem State.withOutput_phase (o : Output) : (s.withOutput o).phase = s.phase := rfl
@[simp] theorem State.withOutput_stepIndex (o : Output) : (s.withOutput o).stepIndex = s.stepIndex := rfl
@[simp] theorem State.withOutput_pending (o : Output) : (s.withOutput o).pending = s.pending := rfl
@[simp] theorem State.withOutput_portOpcode (o : Output) : (s.withOutput o).portOpcode = s.portOpcode := rfl
@[simp] theorem State.withOutput_portIrq (o : Output) : (s.withOutput o).portIrq = s.portIrq := rfl
@[simp] theorem State.withOutput_portZ (o : Output) : (s.withOutput o).portZ = s.portZ := rfl
@[simp] theorem State.withOutput_output (o : Output) : (s.withOutput o).output = o := rfl

@[simp] theorem State.withPending_rom (is : List Instr) : (s.withPending is).rom = s.rom := rfl
@[simp] theorem State.withPending_written (is : List Instr) : (s.withPending is).written = s.written := rfl
@[simp] theorem State.withPending_phase (is : List Instr) : (s.withPending is).phase = s.phase := rfl
@[simp] theorem State.withPending_stepIndex (is : List Instr) : (s.withPending is).stepIndex = s.stepIndex := rfl
@[simp] theorem State.withPending_pending (is : List Instr) : (s.withPending is).pending = is := rfl
@[simp] theorem State.withPending_portOpcode (is : List Instr) : (s.withPending is).portOpcode = s.portOpcode := rfl
@[simp] theorem State.withPending_portIrq (is : List Instr) : (s.withPending is).portIrq = s.portIrq := rfl
@[simp] theorem State.withPending_portZ (is : List Instr) : (s.withPending is).portZ = s.portZ := rfl
@[simp] theorem State.withPending_output (is : List Instr) : (s.withPending is).output = s.output := rfl

@[simp] theorem State.raise_rom (e : BuildError) : (s.raise e).rom = s.rom := rfl
@[simp] theorem State.raise_written (e : BuildError) : (s.raise e).written = s.written := rfl
@[simp] theorem State.raise_phase (e : BuildError) : (s.raise e).phase = some (.aborted e) := rfl
@[simp] theorem State.raise_stepIndex (e : BuildError) : (s.raise e).stepIndex = s.stepIndex := rfl
@[simp] theorem State.raise_pending (e : BuildError) : (s.raise e).pending = s.pending := rfl
@[simp] theorem State.raise_portOpcode (e : BuildError) : (s.raise e).portOpcode = s.portOpcode := rfl
@[simp] theorem State.raise_portIrq (e : BuildError) : (s.raise e).portIrq = s.portIrq := rfl
@[simp] theorem State.raise_portZ (e : BuildError) : (s.raise e).portZ = s.portZ := rfl
@[simp] theorem State.raise_output (e : BuildError) : (s.raise e).output = s.output := rfl

@[simp] theorem State.writeWord_rom (a : Address) (w : ControlWord) : (s.writeWord a w).rom = s.rom.write a.toNat w := rfl
@[simp] theorem State.writeWord_written (a : Address) (w : ControlWord) : (s.writeWord a w).written = s.written.set a.toNat true a.isLt := rfl
@[simp] theorem State.writeWord_phase (a : Address) (w : ControlWord) : (s.writeWord a w).phase = s.phase := rfl
@[simp] theorem State.writeWord_stepIndex (a : Address) (w : ControlWord) : (s.writeWord a w).stepIndex = s.stepIndex + 1 := rfl
@[simp] theorem State.writeWord_pending (a : Address) (w : ControlWord) : (s.writeWord a w).pending = s.pending := rfl
@[simp] theorem State.writeWord_portOpcode (a : Address) (w : ControlWord) : (s.writeWord a w).portOpcode = s.portOpcode := rfl
@[simp] theorem State.writeWord_portIrq (a : Address) (w : ControlWord) : (s.writeWord a w).portIrq = s.portIrq := rfl
@[simp] theorem State.writeWord_portZ (a : Address) (w : ControlWord) : (s.writeWord a w).portZ = s.portZ := rfl
@[simp] theorem State.writeWord_output (a : Address) (w : ControlWord) : (s.writeWord a w).output = s.output := rfl

@[simp] theorem State.created_rom : s.created.rom = [] := rfl
@[simp] theorem State.created_written : s.created.written = Vector.replicate 256 false := rfl
@[simp] theorem State.created_phase : s.created.phase = some .building := rfl
@[simp] theorem State.created_stepIndex : s.created.stepIndex = 0 := rfl
@[simp] theorem State.created_pending : s.created.pending = s.pending := rfl
@[simp] theorem State.created_portOpcode : s.created.portOpcode = s.portOpcode := rfl
@[simp] theorem State.created_portIrq : s.created.portIrq = s.portIrq := rfl
@[simp] theorem State.created_portZ : s.created.portZ = s.portZ := rfl
@[simp] theorem State.created_output : s.created.output = s.output := rfl

@[simp] theorem State.sealedNow_rom : s.sealedNow.rom = s.rom := rfl
@[simp] theorem State.sealedNow_written : s.sealedNow.written = s.written := rfl
@[simp] theorem State.sealedNow_phase : s.sealedNow.phase = some .sealed := rfl
@[simp] theorem State.sealedNow_stepIndex : s.sealedNow.stepIndex = s.stepIndex := rfl
@[simp] theorem State.sealedNow_pending : s.sealedNow.pending = s.pending := rfl
@[simp] theorem State.sealedNow_portOpcode : s.sealedNow.portOpcode = s.portOpcode := rfl
@[simp] theorem State.sealedNow_portIrq : s.sealedNow.portIrq = s.portIrq := rfl
@[simp] theorem State.sealedNow_portZ : s.sealedNow.portZ = s.portZ := rfl
@[simp] theorem State.sealedNow_output : s.sealedNow.output = s.output := rfl

@[simp] theorem State.withReferenceImage_rom : s.withReferenceImage.rom = referenceRom := rfl
@[simp] theorem State.withReferenceImage_written : s.withReferenceImage.written = Vector.replicate 256 true := rfl
@[simp] theorem State.withReferenceImage_phase : s.withReferenceImage.phase = some .sealed := rfl
@[simp] theorem State.withReferenceImage_stepIndex : s.withReferenceImage.stepIndex = 316 := rfl
@[simp] theorem State.withReferenceImage_pending : s.withReferenceImage.pending = s.pending := rfl
@[simp] theorem State.withReferenceImage_portOpcode : s.withReferenceImage.portOpcode = s.portOpcode := rfl
@[simp] theorem State.withReferenceImage_portIrq : s.withReferenceImage.portIrq = s.portIrq := rfl
@[simp] theorem State.withReferenceImage_portZ : s.withReferenceImage.portZ = s.portZ := rfl
@[simp] theorem State.withReferenceImage_output : s.withReferenceImage.output = s.output := rfl

end Sys2Proof.Machine
end

