-- ==== Sys2Proof/Laws/Ops.lean ====
section
/-! SUPPORT. For each shared operation, what it can do: one lemma that callers cite instead of unfolding it. -/

namespace Sys2Proof

/-! ## Addresses and fields -/

/-- The formed address as a number: the three sub-fields do not overlap. -/
theorem formAddress_toNat (opcode : Opcode) (irq z : Bit) :
    (formAddress opcode irq z).toNat = 4 * opcode.toNat + 2 * irq.toNat + z.toNat := by
  revert opcode irq z
  decide

theorem subFieldsLegal_iff {opcode irq z : Nat} :
    subFieldsLegal opcode irq z = true ↔ opcode < 64 ∧ irq < 2 ∧ z < 2 := by
  unfold subFieldsLegal
  rw [Bool.and_eq_true, Bool.and_eq_true, decide_eq_true_eq, decide_eq_true_eq, decide_eq_true_eq]
  exact and_assoc

theorem mem_allAddresses (a : Address) : a ∈ allAddresses :=
  List.mem_map.mpr ⟨a.toNat, List.mem_range.mpr a.isLt, by simp⟩

theorem Field.mem_all (f : Field) : f ∈ Field.all := by cases f <;> decide

/-- No field is reported exactly when every value fits. -/
theorem firstOverflow_eq_none {F : FieldConfig} : F.firstOverflow = none ↔ F.Fits := by
  simp [FieldConfig.firstOverflow, FieldConfig.Fits, List.find?_eq_none]

/-- The reported field overflows, and it stands in the list of fields after fields that fit. -/
theorem firstOverflow_eq_some {F : FieldConfig} {f : Field} :
    F.firstOverflow = some f ↔
      2 ^ f.width ≤ F.get f ∧ ∃ before after, Field.all = before ++ f :: after ∧ ∀ g ∈ before, F.get g < 2 ^ g.width := by
  simp [FieldConfig.firstOverflow, List.find?_eq_some_iff_append]

end Sys2Proof

namespace Sys2Proof.Machine

variable {s t : State}

/-! ## The written marks -/

/-- A successful PROGRAM marks its address and no other. -/
theorem State.isWritten_writeWord (s : State) (a b : Address) (w : ControlWord) :
    (s.writeWord b w).isWritten a = if a = b then true else s.isWritten a := by
  unfold State.isWritten
  simp only [State.writeWord_written, Vector.getElem_set]
  by_cases h : a = b
  · simp [h]
  · rw [if_neg h, if_neg fun e => h (BitVec.eq_of_toNat_eq e.symm)]

@[simp] theorem State.isWritten_created (s : State) (a : Address) : s.created.isWritten a = false := by
  simp [State.isWritten]

@[simp] theorem State.isWritten_withReferenceImage (s : State) (a : Address) :
    s.withReferenceImage.isWritten a = true := by
  simp [State.isWritten]

/-- SEAL finds no unwritten address exactly when every address is written. -/
theorem State.leastUnwritten_eq_none : s.leastUnwritten = none ↔ ∀ a : Address, s.isWritten a = true := by
  simp only [State.leastUnwritten, List.find?_eq_none, Bool.not_eq_true, Bool.not_eq_false']
  exact ⟨fun h a => h a (mem_allAddresses a), fun h a _ => h a⟩

/-- The addresses are listed in ascending order. -/
theorem allAddresses_sorted : allAddresses.Pairwise (fun a b => a.toNat < b.toNat) := by
  rw [allAddresses, List.pairwise_map]
  refine List.Pairwise.imp_of_mem (fun {a b} ha hb h => ?_) List.pairwise_lt_range
  rw [List.mem_range] at ha hb
  simpa [Config.romDepth, BitVec.toNat_ofNat, Nat.mod_eq_of_lt (show a < 256 from ha),
    Nat.mod_eq_of_lt (show b < 256 from hb)] using h

/-- The address SEAL reports is unwritten, and every lower one is written. -/
theorem State.leastUnwritten_eq_some {a : Address} (h : s.leastUnwritten = some a) :
    s.isWritten a = false ∧ ∀ b : Address, b.toNat < a.toNat → s.isWritten b = true := by
  obtain ⟨hp, before, after, hl, hb⟩ := List.find?_eq_some_iff_append.mp h
  refine ⟨by simpa using hp, fun b hlt => ?_⟩
  have hs := allAddresses_sorted
  rw [hl, List.pairwise_append, List.pairwise_cons] at hs
  have hmem := mem_allAddresses b
  rw [hl, List.mem_append, List.mem_cons] at hmem
  rcases hmem with hmem | rfl | hmem
  · simpa using hb b hmem
  · exact absurd hlt (Nat.lt_irrefl _)
  · exact absurd (hs.2.1.1 b hmem) (Nat.not_lt.mpr (Nat.le_of_lt hlt))

/-! ## CREATE, PROGRAM, SEAL, READ and the read port -/

/-- CREATE answers a next state only where there is no image, and the answer is the empty one. -/
theorem State.create_next (h : s.create = .next t) : s.phase = none ∧ t = s.created := by
  unfold State.create at h
  split at h
  · next hp => exact ⟨hp, by injection h with h; exact h.symm⟩
  · cases h

/-- What PROGRAM in phase Building can do: refuse the address, refuse a field, or write its word. -/
theorem State.programBuilding_cases (s : State) (opcode z irq : Nat) (F : FieldConfig) :
    (subFieldsLegal opcode irq z = false ∧
      s.programBuilding opcode z irq F = s.raise (.addressOutOfRange opcode irq z (formedNumber opcode irq z))) ∨
    (subFieldsLegal opcode irq z = true ∧ ∃ f, F.firstOverflow = some f ∧
      s.programBuilding opcode z irq F =
        s.raise (.fieldOverflow (BitVec.ofNat 8 (formedNumber opcode irq z)) opcode irq z f (F.get f) f.width)) ∨
    (subFieldsLegal opcode irq z = true ∧ F.Fits ∧
      s.programBuilding opcode z irq F = s.writeWord (BitVec.ofNat 8 (formedNumber opcode irq z)) (pack F)) := by
  unfold State.programBuilding
  cases hl : subFieldsLegal opcode irq z
  · exact .inl ⟨rfl, rfl⟩
  · cases hF : F.firstOverflow with
    | some f => exact .inr (.inl ⟨rfl, f, rfl, rfl⟩)
    | none => exact .inr (.inr ⟨rfl, firstOverflow_eq_none.mp hF, rfl⟩)

/-- Where there is no image, CREATE makes it. -/
theorem State.create_of_none (h : s.phase = none) : s.create = .next s.created := by
  unfold State.create
  rw [h]

/-- PROGRAM answers a next state only in phase Building. -/
theorem State.program_next {opcode z irq : Nat} {F : FieldConfig} (h : s.program opcode z irq F = .next t) :
    s.phase = some .building ∧ t = s.programBuilding opcode z irq F := by
  unfold State.program at h
  split at h
  · cases h
  · cases h
  · cases h
  · next hp => exact ⟨hp, by injection h with h; exact h.symm⟩

/-- SEAL answers a next state only in phase Sealed, unchanged, or in phase Building, sealed or aborted. -/
theorem State.sealImage_next (h : s.sealImage = .next t) :
    (s.phase = some .sealed ∧ t = s) ∨
    (s.phase = some .building ∧ (∀ a : Address, s.isWritten a = true) ∧ t = s.sealedNow) ∨
    (s.phase = some .building ∧ ∃ a, s.leastUnwritten = some a ∧ t = s.raise (.incompleteImage a)) := by
  unfold State.sealImage at h
  split at h
  · cases h
  · next hp => exact .inl ⟨hp, by injection h with h; exact h.symm⟩
  · cases h
  · next hp =>
    injection h with h
    unfold State.sealBuilding at h
    split at h
    · next a ha => exact .inr (.inr ⟨hp, a, ha, h.symm⟩)
    · next hn => exact .inr (.inl ⟨hp, State.leastUnwritten_eq_none.mp hn, h.symm⟩)

/-- A read has a word only in phase Sealed and inside the space, and the word is the one held there. -/
theorem State.readWord_ok {a : Nat} {w : ControlWord} :
    s.readWord a = .ok w ↔ s.phase = some .sealed ∧ a < 256 ∧ w = s.rom.read a := by
  unfold State.readWord
  split
  · next h => simp [h]
  · next h => simp [h]
  · next h => simp [h]
  · next h =>
    by_cases ha : a < 256
    · simp [h, ha, Config.romDepth, eq_comm]
    · simp [h, ha, Config.romDepth]

/-- READ answers a next state only in phase Sealed and inside the space: the word is recorded, nothing else changes. -/
theorem State.read_next {a : Nat} (h : s.read a = .next t) :
    s.phase = some .sealed ∧ a < 256 ∧ t = s.withOutput (.word (s.rom.read a)) := by
  unfold State.read at h
  split at h
  · cases h
  · next w hw =>
    obtain ⟨hp, ha, rfl⟩ := State.readWord_ok.mp hw
    injection h with h
    exact ⟨hp, ha, h.symm⟩

/-- The read port answers a next state only in phase Sealed: the word at the formed address and its fields are recorded,
nothing else changes. -/
theorem State.present_next {opcode : Opcode} {irq z : Bit} (h : s.present opcode irq z = .next t) :
    s.phase = some .sealed ∧
      t = s.withOutput (.port (s.rom.read (formAddress opcode irq z).toNat)
        (unpack (s.rom.read (formAddress opcode irq z).toNat))) := by
  unfold State.present at h
  split at h
  · cases h
  · next w hw =>
    obtain ⟨hp, _, rfl⟩ := State.readWord_ok.mp hw
    injection h with h
    exact ⟨hp, h.symm⟩

/-- In phase Sealed the read port always answers. -/
theorem State.present_sealed (h : s.phase = some .sealed) (opcode : Opcode) (irq z : Bit) :
    s.present opcode irq z = .next (s.withOutput (.port (s.rom.read (formAddress opcode irq z).toNat)
      (unpack (s.rom.read (formAddress opcode irq z).toNat)))) := by
  unfold State.present
  rw [State.readWord_ok.mpr ⟨h, (formAddress opcode irq z).isLt, rfl⟩]

end Sys2Proof.Machine
end

