-- ==== Sys2Proof/Laws/Exec.lean ====
section
/-! SUPPORT. What `exec` and `step` can do, once over all instructions. -/

namespace Sys2Proof.Machine

variable {s t : State} {i : Instr}

/-- The ways an instruction can end in a next state. -/
inductive Effect (s : State) : State → Prop where
  /-- SEAL in phase Sealed. -/
  | same : s.phase = some .sealed → Effect s s
  /-- READ, the read port and UNPACK record an answer. -/
  | answered (o : Output) : Effect s (s.withOutput o)
  /-- CREATE, where there is no image. -/
  | created : s.phase = none → Effect s s.created
  /-- PROGRAM writes its word. -/
  | wrote (a : Address) (w : ControlWord) : s.phase = some .building → Effect s (s.writeWord a w)
  /-- PROGRAM or SEAL raises a build error. -/
  | raised (e : BuildError) : s.phase = some .building → Effect s (s.raise e)
  /-- SEAL finishes the image. -/
  | finished : s.phase = some .building → (∀ a : Address, s.isWritten a = true) → Effect s s.sealedNow

theorem Effect.of_present {opcode : Opcode} {irq z : Bit} (h : s.present opcode irq z = .next t) : Effect s t := by
  obtain ⟨-, rfl⟩ := State.present_next h
  exact .answered _

theorem Effect.of_program {opcode z irq : Nat} {F : FieldConfig} (h : s.program opcode z irq F = .next t) :
    Effect s t := by
  obtain ⟨hp, rfl⟩ := State.program_next h
  obtain ⟨-, e⟩ | ⟨-, f, -, e⟩ | ⟨-, -, e⟩ := State.programBuilding_cases s opcode z irq F <;> rw [e]
  · exact .raised _ hp
  · exact .raised _ hp
  · exact .wrote _ _ hp

theorem Effect.of_sealImage (h : s.sealImage = .next t) : Effect s t := by
  obtain ⟨hp, rfl⟩ | ⟨hp, ha, rfl⟩ | ⟨hp, a, -, rfl⟩ := State.sealImage_next h
  · exact .same hp
  · exact .finished hp ha
  · exact .raised _ hp

/-- Every next state of an instruction is one of the six effects. -/
theorem exec_effect (h : exec i s = .next t) : Effect s t := by
  cases i with
  | create => obtain ⟨hp, rfl⟩ := State.create_next h; exact .created hp
  | unpack w => injection h with h; exact h ▸ .answered _
  | program => exact .of_program h
  | sealImage => exact .of_sealImage h
  | read a => obtain ⟨-, -, rfl⟩ := State.read_next h; exact .answered _
  | _ => exact .of_present h

/-- An address row presents its own inputs at the read port. -/
theorem exec_of_inputs {opcode : Opcode} {irq z : Bit} (h : i.inputs = some (opcode, irq, z)) :
    exec i s = s.present opcode irq z := by
  cases i <;> simp only [Instr.inputs, Option.some.injEq, Prod.mk.injEq, reduceCtorEq] at h <;>
    obtain ⟨rfl, rfl, rfl⟩ := h <;> rfl

/-- A waiting operation is carried out. -/
theorem step_of_pending {rest : List Instr} (h : s.pending = i :: rest) : step s = exec i (s.withPending rest) := by
  unfold step
  rw [h]

/-- When nothing waits, the presented address is decoded and its row carried out. -/
theorem step_of_idle (h : s.pending = []) : step s = exec (decodeAddress s.portAddress) s := by
  unfold step
  rw [h]

/-- What a step can do: the effect of one instruction, once the waiting operation is taken. -/
theorem step_effect (h : step s = .next t) : ∃ is, Effect (s.withPending is) t := by
  unfold step at h
  split at h
  · exact ⟨_, exec_effect h⟩
  · exact ⟨s.pending, exec_effect h⟩

/-- A run of `n + 1` steps whose first step answers `t` is a run of `n` from `t`, on any machine of the host's interface. -/
theorem run_succ {M : Host.Core} {u v : M.State} (n : Nat) (h : M.step u = .next v) : M.run (n + 1) u = M.run n v := by
  rw [Host.Core.run, h]

/-- A run of `n + 1` steps that answers a next state begins with a step that does. -/
theorem run_succ_next {M : Host.Core} {u v : M.State} {n : Nat} (h : M.run (n + 1) u = .next v) :
    ∃ w, M.step u = .next w ∧ M.run n w = .next v := by
  rw [Host.Core.run] at h
  split at h
  · next w hw => exact ⟨w, hw, h⟩
  · cases h
  · cases h

/-- What every step keeps, every run keeps. -/
theorem run_keeps {P : State → Prop} (hP : ∀ u v, P u → step u = .next v → P v) {n : Nat} (hs : P s)
    (h : Host.Core.run Sys2Proof.core n s = .next t) : P t := by
  induction n generalizing s with
  | zero => injection h with h; exact h ▸ hs
  | succ n ih =>
    obtain ⟨u, hu, hr⟩ := run_succ_next h
    exact ih (hP s u hs hu) hr

/-- Running a list is running its first operation and then the rest. -/
theorem runOps_cons {rest : List Instr} (h : exec i s = .next t) : runOps (i :: rest) s = runOps rest t := by
  rw [runOps, h]

/-- Running two lists in a row. -/
theorem runOps_append {xs ys : List Instr} (h : runOps xs s = .next t) : runOps (xs ++ ys) s = runOps ys t := by
  induction xs generalizing s with
  | nil => injection h with h; rw [h]; rfl
  | cons x xs ih =>
    unfold runOps at h
    split at h
    · next u hu => rw [List.cons_append, runOps_cons hu, ih h]
    · cases h
    · cases h

end Sys2Proof.Machine
end

