-- ==== Sys2Proof/Laws/Build.lean ====
section
/-! SUPPORT. Running a list of PROGRAM operations that all succeed: the last one that names an address decides its word. -/

namespace Sys2Proof.Machine

variable {s t : State}

/-- In range, the formed number is the sum of its parts and an address. -/
theorem formedNumber_lt {opcode irq z : Nat} (h : subFieldsLegal opcode irq z = true) :
    formedNumber opcode irq z < 256 := by
  obtain ⟨ho, hi, hz⟩ := subFieldsLegal_iff.mp h
  have : ∀ opcode < 64, ∀ irq < 2, ∀ z < 2, formedNumber opcode irq z < 256 := by decide
  exact this opcode ho irq hi z hz

/-- A PROGRAM that succeeds in phase Building: sub-fields in range and every value fitting its field. -/
def Succeeds : Instr → Prop
  | .program opcode z irq F => subFieldsLegal opcode irq z = true ∧ F.Fits
  | _ => False

/-- The word a list of PROGRAMs leaves at an address, if it programs it: the last one wins (rule R52). -/
def lastWord (ps : List Instr) (a : Nat) : Option ControlWord :=
  ps.foldl (fun found i =>
    match i with
    | .program opcode z irq F => if a = formedNumber opcode irq z then some (pack F) else found
    | _ => found) none

/-- A PROGRAM that succeeds writes its word. -/
theorem exec_program_succeeds {opcode z irq : Nat} {F : FieldConfig} (hs : s.phase = some .building)
    (h : Succeeds (.program opcode z irq F)) :
    exec (.program opcode z irq F) s = .next (s.writeWord (BitVec.ofNat 8 (formedNumber opcode irq z)) (pack F)) := by
  have hF := firstOverflow_eq_none.mpr h.2
  show s.program opcode z irq F = _
  unfold State.program State.programBuilding
  simp only [hs, h.1, hF, if_true]

theorem lastWord_snoc (ps : List Instr) (opcode z irq : Nat) (F : FieldConfig) (a : Nat) :
    lastWord (ps ++ [.program opcode z irq F]) a =
      if a = formedNumber opcode irq z then some (pack F) else lastWord ps a := by
  simp [lastWord, List.foldl_append]

/-- A list of PROGRAMs that all succeed runs to the end in phase Building; each address holds the last word programmed there, or
what it held before, and is written if it was programmed or was written before. -/
theorem runOps_programs (ps : List Instr) (h : ∀ i ∈ ps, Succeeds i) (hs : s.phase = some .building) (hm : s.rom.wf) :
    ∃ t, runOps ps s = .next t ∧ t.phase = some .building ∧ t.rom.wf ∧ t.stepIndex = s.stepIndex + ps.length ∧
      (∀ a, t.rom.read a = (lastWord ps a).getD (s.rom.read a)) ∧
      (∀ a : Address, t.isWritten a = ((lastWord ps a.toNat).isSome || s.isWritten a)) ∧
      t.pending = s.pending ∧ t.portOpcode = s.portOpcode ∧ t.portIrq = s.portIrq ∧ t.portZ = s.portZ ∧
      t.output = s.output := by
  induction ps using List.reverseRecOn with
  | nil => exact ⟨s, rfl, hs, hm, by simp, by simp [lastWord], by simp [lastWord], rfl, rfl, rfl, rfl, rfl⟩
  | append_singleton ps i ih =>
    obtain ⟨t, hr, hp, hw, hc, hread, hmark, h1, h2, h3, h4, h5⟩ := ih fun j hj => h j (by simp [hj])
    have hi := h i (by simp)
    obtain ⟨opcode, z, irq, F, rfl⟩ : ∃ opcode z irq F, i = .program opcode z irq F := by
      cases i <;> first | exact absurd hi id | exact ⟨_, _, _, _, rfl⟩
    have hlt : (BitVec.ofNat 8 (formedNumber opcode irq z)).toNat = formedNumber opcode irq z := by
      simpa using Nat.mod_eq_of_lt (formedNumber_lt hi.1)
    refine ⟨t.writeWord (BitVec.ofNat 8 (formedNumber opcode irq z)) (pack F), ?_, hp, ?_, ?_, fun a => ?_, fun a => ?_, h1, h2, h3, h4, h5⟩
    · rw [runOps_append hr, runOps_cons (exec_program_succeeds hp hi)]
      rfl
    · exact Memory.wf_write hw (by rw [hlt]; exact formedNumber_lt hi.1)
    · simp [hc, Nat.add_assoc]
    · rw [State.writeWord_rom, Memory.read_write hw, hlt, lastWord_snoc, hread a]
      split <;> rfl
    · rw [State.isWritten_writeWord, lastWord_snoc, hmark a]
      by_cases ha : a = BitVec.ofNat 8 (formedNumber opcode irq z)
      · rw [if_pos ha, if_pos (by rw [ha, hlt])]
        rfl
      · rw [if_neg ha, if_neg fun e => ha (BitVec.eq_of_toNat_eq (e.trans hlt.symm))]

end Sys2Proof.Machine
end

