-- ==== Sys2Proof/Laws/PerInstr.lean ====
section
/-! SUPPORT. Per-instruction laws. `InputsRecovered`: the address of a row holds, in the fields where the decoder reads them,
exactly the read-port inputs that select the row; no input is dropped or moved. -/

namespace Sys2Proof.Laws

/-- Splitting a formed address gives back the inputs it was formed from. -/
def InputsRecovered.Splits (p : Opcode × Bit × Bit) : Prop :=
  (addressOpcode (formAddress p.1 p.2.1 p.2.2), addressIrq (formAddress p.1 p.2.1 p.2.2),
    addressZero (formAddress p.1 p.2.1 p.2.2)) = p

/-- The law: if the row is encoded at all, its address splits into its own inputs. -/
def InputsRecovered.Statement (i : Instr) : Prop :=
  ∀ a, encode i = some a → i.inputs = some (addressOpcode a, addressIrq a, addressZero a)

theorem InputsRecovered.of_inputs {i : Instr} {p : Opcode × Bit × Bit} (h : i.inputs = some p)
    (hp : InputsRecovered.Splits p) : InputsRecovered.Statement i := by
  intro a ha
  unfold encode at ha
  rw [h] at ha
  injection ha with ha
  rw [h, ← ha]
  exact congrArg some hp.symm

theorem InputsRecovered.of_no_inputs {i : Instr} (h : i.inputs = none) : InputsRecovered.Statement i := by
  intro a ha
  unfold encode at ha
  rw [h] at ha
  cases ha

theorem InputsRecovered.irq (opcode : Opcode) (z : Bit) : InputsRecovered.Statement (.irq opcode z) :=
  InputsRecovered.of_inputs rfl (by revert opcode z; unfold InputsRecovered.Splits; decide)

theorem InputsRecovered.add (z : Bit) : InputsRecovered.Statement (.add z) :=
  InputsRecovered.of_inputs rfl (by revert z; unfold InputsRecovered.Splits; decide)

theorem InputsRecovered.addc (z : Bit) : InputsRecovered.Statement (.addc z) :=
  InputsRecovered.of_inputs rfl (by revert z; unfold InputsRecovered.Splits; decide)

theorem InputsRecovered.sub (z : Bit) : InputsRecovered.Statement (.sub z) :=
  InputsRecovered.of_inputs rfl (by revert z; unfold InputsRecovered.Splits; decide)

theorem InputsRecovered.subc (z : Bit) : InputsRecovered.Statement (.subc z) :=
  InputsRecovered.of_inputs rfl (by revert z; unfold InputsRecovered.Splits; decide)

theorem InputsRecovered.mul (z : Bit) : InputsRecovered.Statement (.mul z) :=
  InputsRecovered.of_inputs rfl (by revert z; unfold InputsRecovered.Splits; decide)

theorem InputsRecovered.mulc (z : Bit) : InputsRecovered.Statement (.mulc z) :=
  InputsRecovered.of_inputs rfl (by revert z; unfold InputsRecovered.Splits; decide)

theorem InputsRecovered.cmpeq (z : Bit) : InputsRecovered.Statement (.cmpeq z) :=
  InputsRecovered.of_inputs rfl (by revert z; unfold InputsRecovered.Splits; decide)

theorem InputsRecovered.cmpeqc (z : Bit) : InputsRecovered.Statement (.cmpeqc z) :=
  InputsRecovered.of_inputs rfl (by revert z; unfold InputsRecovered.Splits; decide)

theorem InputsRecovered.cmplt (z : Bit) : InputsRecovered.Statement (.cmplt z) :=
  InputsRecovered.of_inputs rfl (by revert z; unfold InputsRecovered.Splits; decide)

theorem InputsRecovered.cmpltc (z : Bit) : InputsRecovered.Statement (.cmpltc z) :=
  InputsRecovered.of_inputs rfl (by revert z; unfold InputsRecovered.Splits; decide)

theorem InputsRecovered.cmple (z : Bit) : InputsRecovered.Statement (.cmple z) :=
  InputsRecovered.of_inputs rfl (by revert z; unfold InputsRecovered.Splits; decide)

theorem InputsRecovered.cmplec (z : Bit) : InputsRecovered.Statement (.cmplec z) :=
  InputsRecovered.of_inputs rfl (by revert z; unfold InputsRecovered.Splits; decide)

theorem InputsRecovered.and (z : Bit) : InputsRecovered.Statement (.and z) :=
  InputsRecovered.of_inputs rfl (by revert z; unfold InputsRecovered.Splits; decide)

theorem InputsRecovered.andc (z : Bit) : InputsRecovered.Statement (.andc z) :=
  InputsRecovered.of_inputs rfl (by revert z; unfold InputsRecovered.Splits; decide)

theorem InputsRecovered.or (z : Bit) : InputsRecovered.Statement (.or z) :=
  InputsRecovered.of_inputs rfl (by revert z; unfold InputsRecovered.Splits; decide)

theorem InputsRecovered.orc (z : Bit) : InputsRecovered.Statement (.orc z) :=
  InputsRecovered.of_inputs rfl (by revert z; unfold InputsRecovered.Splits; decide)

theorem InputsRecovered.xor (z : Bit) : InputsRecovered.Statement (.xor z) :=
  InputsRecovered.of_inputs rfl (by revert z; unfold InputsRecovered.Splits; decide)

theorem InputsRecovered.xorc (z : Bit) : InputsRecovered.Statement (.xorc z) :=
  InputsRecovered.of_inputs rfl (by revert z; unfold InputsRecovered.Splits; decide)

theorem InputsRecovered.xnor (z : Bit) : InputsRecovered.Statement (.xnor z) :=
  InputsRecovered.of_inputs rfl (by revert z; unfold InputsRecovered.Splits; decide)

theorem InputsRecovered.xnorc (z : Bit) : InputsRecovered.Statement (.xnorc z) :=
  InputsRecovered.of_inputs rfl (by revert z; unfold InputsRecovered.Splits; decide)

theorem InputsRecovered.shl (z : Bit) : InputsRecovered.Statement (.shl z) :=
  InputsRecovered.of_inputs rfl (by revert z; unfold InputsRecovered.Splits; decide)

theorem InputsRecovered.shlc (z : Bit) : InputsRecovered.Statement (.shlc z) :=
  InputsRecovered.of_inputs rfl (by revert z; unfold InputsRecovered.Splits; decide)

theorem InputsRecovered.shr (z : Bit) : InputsRecovered.Statement (.shr z) :=
  InputsRecovered.of_inputs rfl (by revert z; unfold InputsRecovered.Splits; decide)

theorem InputsRecovered.shrc (z : Bit) : InputsRecovered.Statement (.shrc z) :=
  InputsRecovered.of_inputs rfl (by revert z; unfold InputsRecovered.Splits; decide)

theorem InputsRecovered.sra (z : Bit) : InputsRecovered.Statement (.sra z) :=
  InputsRecovered.of_inputs rfl (by revert z; unfold InputsRecovered.Splits; decide)

theorem InputsRecovered.srac (z : Bit) : InputsRecovered.Statement (.srac z) :=
  InputsRecovered.of_inputs rfl (by revert z; unfold InputsRecovered.Splits; decide)

theorem InputsRecovered.beq (z : Bit) : InputsRecovered.Statement (.beq z) :=
  InputsRecovered.of_inputs rfl (by revert z; unfold InputsRecovered.Splits; decide)

theorem InputsRecovered.bne (z : Bit) : InputsRecovered.Statement (.bne z) :=
  InputsRecovered.of_inputs rfl (by revert z; unfold InputsRecovered.Splits; decide)

theorem InputsRecovered.ldr (z : Bit) : InputsRecovered.Statement (.ldr z) :=
  InputsRecovered.of_inputs rfl (by revert z; unfold InputsRecovered.Splits; decide)

theorem InputsRecovered.jmp (z : Bit) : InputsRecovered.Statement (.jmp z) :=
  InputsRecovered.of_inputs rfl (by revert z; unfold InputsRecovered.Splits; decide)

theorem InputsRecovered.illegal (opcode : Opcode) (z : Bit) : InputsRecovered.Statement (.illegal opcode z) :=
  InputsRecovered.of_inputs rfl (by revert opcode z; unfold InputsRecovered.Splits; decide)

theorem InputsRecovered.create : InputsRecovered.Statement .create :=
  InputsRecovered.of_no_inputs rfl

theorem InputsRecovered.program (opcode z irq : Nat) (F : FieldConfig) : InputsRecovered.Statement (.program opcode z irq F) :=
  InputsRecovered.of_no_inputs rfl

theorem InputsRecovered.sealImage : InputsRecovered.Statement .sealImage :=
  InputsRecovered.of_no_inputs rfl

theorem InputsRecovered.read (a : Nat) : InputsRecovered.Statement (.read a) :=
  InputsRecovered.of_no_inputs rfl

theorem InputsRecovered.lookup (opcode : Opcode) (irq z : Bit) : InputsRecovered.Statement (.lookup opcode irq z) :=
  InputsRecovered.of_no_inputs rfl

theorem InputsRecovered.unpack (w : ControlWord) : InputsRecovered.Statement (.unpack w) :=
  InputsRecovered.of_no_inputs rfl

end Sys2Proof.Laws
end

