-- ==== Sys2Proof/Tests/Slice0.lean ====
section
/-! SUPPORT. The model's own tests. Expected values come from the spec: the encoding column of opcode_table.json, and the vectors
of 95_test_vectors.md, named in the comments. Then a witness for the hypotheses of every statement that has some. -/

namespace Sys2Proof.Tests

open Sys2Proof Sys2Proof.Machine

/-! ## Helpers -/

/-- The sealed reference image with address 0 at the port. -/
def refState : State := State.reset.withFetchWord 8 0

/-- A sealed image that lists one word. -/
def sealedWith (a : Nat) (w : ControlWord) : State :=
  { State.reset with rom := [(a, w)], phase := some .sealed, pending := [] }

/-- Every address written, still Building. -/
def completeState : State := { State.reset with written := Vector.replicate 256 true }

/-- Every address written but the highest. -/
def lastMissing : State := { State.reset with written := (Vector.replicate 256 true).set 255 false }

/-- A build aborted by SEAL of the empty image (vector L2-S1). -/
def abortedState : State := { State.reset with phase := some (.aborted (.incompleteImage 0)) }

/-- Before CREATE, with marks, words and a step that CREATE must clear. -/
def emptyStart : State := { refState with phase := none }

def outputOf : Host.Outcome State Fault Refusal → Option Output
  | .next t => some t.output
  | _ => none

def faultOf : Host.Outcome State Fault Refusal → Option Fault
  | .fault f => some f
  | _ => none

def stateOf : Host.Outcome State Fault Refusal → Option State
  | .next t => some t
  | _ => none

def cwOf (r : Host.Outcome State Fault Refusal) : Option ControlWord :=
  match outputOf r with
  | some (.port cw _) => some cw
  | _ => none

/-! ## Well-formedness -/

/-- 0x20 is ADD's opcode, not an illegal one (R80). -/
theorem test_wellFormed_refuses_illegal_add : (Instr.illegal 0x20 0).wellFormed = false := by decide
theorem test_wellFormed_accepts_illegal_top : (Instr.illegal 0x3F 1).wellFormed = true := by decide

/-! ## Decoding: words written out from the encoding column of opcode_table.json -/

theorem test_decode_add : decodeAddress 0b10000000 = .add 0 := by decide
theorem test_decode_sub : decodeAddress 0b10000101 = .sub 1 := by decide
theorem test_decode_mul : decodeAddress 0b10001000 = .mul 0 := by decide
theorem test_decode_cmpeq : decodeAddress 0b10010000 = .cmpeq 0 := by decide
theorem test_decode_cmplt : decodeAddress 0b10010101 = .cmplt 1 := by decide
theorem test_decode_cmple : decodeAddress 0b10011000 = .cmple 0 := by decide
theorem test_decode_and : decodeAddress 0b10100000 = .and 0 := by decide
theorem test_decode_or : decodeAddress 0b10100101 = .or 1 := by decide
theorem test_decode_xor : decodeAddress 0b10101000 = .xnor 0 := by decide
theorem test_decode_xnor : decodeAddress 0b10101000 = .xnor 0 := by decide
theorem test_decode_shl : decodeAddress 0b10110000 = .shl 0 := by decide
theorem test_decode_shr : decodeAddress 0b10110101 = .shr 1 := by decide
theorem test_decode_sra : decodeAddress 0b10111000 = .sra 0 := by decide
theorem test_decode_addc : decodeAddress 0b11000000 = .addc 0 := by decide
theorem test_decode_subc : decodeAddress 0b11000101 = .subc 1 := by decide
theorem test_decode_mulc : decodeAddress 0b11001000 = .mulc 0 := by decide
theorem test_decode_cmpeqc : decodeAddress 0b11010000 = .cmpeqc 0 := by decide
theorem test_decode_cmpltc : decodeAddress 0b11010101 = .cmpltc 1 := by decide
theorem test_decode_cmplec : decodeAddress 0b11011000 = .cmplec 0 := by decide
theorem test_decode_andc : decodeAddress 0b11100000 = .andc 0 := by decide
theorem test_decode_orc : decodeAddress 0b11100101 = .orc 1 := by decide
theorem test_decode_xorc : decodeAddress 0b11101000 = .xnorc 0 := by decide
theorem test_decode_xnorc : decodeAddress 0b11101000 = .xnorc 0 := by decide
theorem test_decode_shlc : decodeAddress 0b11110000 = .shlc 0 := by decide
theorem test_decode_shrc : decodeAddress 0b11110101 = .shrc 1 := by decide
theorem test_decode_srac : decodeAddress 0b11111000 = .srac 0 := by decide
theorem test_decode_beq : decodeAddress 0b01110001 = .beq 1 := by decide
theorem test_decode_bne : decodeAddress 0b01110101 = .bne 1 := by decide
theorem test_decode_ldr : decodeAddress 0b01111101 = .ldr 1 := by decide
theorem test_decode_jmp : decodeAddress 0b01101101 = .jmp 1 := by decide
theorem test_decode_irq : decodeAddress 0b10101011 = .irq 0x2A 1 := by decide
theorem test_decode_illegal : decodeAddress 0b10001101 = .illegal 0x23 1 := by decide
/-- No XNOR at 0x2B (vector L2-T5). -/
theorem test_decode_no_xnor_at_2B : decodeAddress 0xAC = .illegal 0x2B 0 := by decide
theorem test_decode_refuses_256 : (match decode 256 with | .error r => r == .addressOutOfRange 256 | .ok _ => false) = true := by
  decide
theorem test_builder_rows_have_no_address :
    [Instr.create, .program 0 0 0 {}, .sealImage, .read 0, .lookup 0 0 0, .unpack 0].map encode =
      [none, none, none, none, none, none] := by decide
theorem test_decodeTableWord : decodeTableWord 8 0x71 = some (.beq 1) := by decide

/-! ## Encoding an address (vectors L2-A1 to L2-A6) -/

theorem test_formAddress :
    [formAddress 0x00 0 0, formAddress 0x3F 1 1, formAddress 0x1C 0 1, formAddress 0x2A 1 1, formAddress 0x1C 1 0] =
      [0x00, 0xFF, 0x71, 0xAB, 0x72] := by decide
theorem test_splitAddress : (addressOpcode 0xC1, addressIrq 0xC1, addressZero 0xC1) = (0x30, 0, 1) := by decide

/-! ## Packing (vectors L2-P1 to L2-P15) -/

theorem test_pack_masks :
    [pack {}, pack { moe := 0 }, pack { moe := 0, alufn := 31 }, pack { moe := 0, wdsel := 3 }, pack { moe := 0, pcsel := 7 },
      pack { moe := 0, pcsel := 7, wdsel := 3, wr := 1, ra2sel := 1 }] =
      [0x00001, 0x00000, 0x001F0, 0x00600, 0x1C000, 0x1E608] := by decide
theorem test_unpack_ldr :
    unpack 0x015A5 =
      { moe := 1, wasel := 0, werf := 1, wr := 0, alufn := 26, wdsel := 2, bsel := 0, asel := 1, ra2sel := 0, pcsel := 0 } := by
  decide

/-! ## The address rows (section 2.6 and 2.7): the word at the row's own address, on an image that lists that word alone -/

theorem test_add : cwOf (exec (.add 0) (sealedWith 0x80 0x00205)) = some 0x00205 := by decide
theorem test_sub : cwOf (exec (.sub 1) (sealedWith 0x85 0x00215)) = some 0x00215 := by decide
theorem test_mul : cwOf (exec (.mul 0) (sealedWith 0x88 0x00225)) = some 0x00225 := by decide
theorem test_cmpeq : cwOf (exec (.cmpeq 1) (sealedWith 0x91 0x00255)) = some 0x00255 := by decide
theorem test_cmplt : cwOf (exec (.cmplt 0) (sealedWith 0x94 0x00275)) = some 0x00275 := by decide
theorem test_cmple : cwOf (exec (.cmple 1) (sealedWith 0x99 0x002D5)) = some 0x002D5 := by decide
theorem test_and : cwOf (exec (.and 0) (sealedWith 0xA0 0x00385)) = some 0x00385 := by decide
theorem test_or : cwOf (exec (.or 1) (sealedWith 0xA5 0x003E5)) = some 0x003E5 := by decide
theorem test_xor : cwOf (exec (.xor 0) (sealedWith 0xA8 0x00395)) = some 0x00395 := by decide
theorem test_xnor : cwOf (exec (.xnor 1) (sealedWith 0xA9 0x00395)) = some 0x00395 := by decide
theorem test_shl : cwOf (exec (.shl 0) (sealedWith 0xB0 0x00285)) = some 0x00285 := by decide
theorem test_shr : cwOf (exec (.shr 1) (sealedWith 0xB5 0x00295)) = some 0x00295 := by decide
theorem test_sra : cwOf (exec (.sra 0) (sealedWith 0xB8 0x002B5)) = some 0x002B5 := by decide
theorem test_addc : cwOf (exec (.addc 1) (sealedWith 0xC1 0x00A05)) = some 0x00A05 := by decide
theorem test_subc : cwOf (exec (.subc 0) (sealedWith 0xC4 0x00A15)) = some 0x00A15 := by decide
theorem test_mulc : cwOf (exec (.mulc 1) (sealedWith 0xC9 0x00A25)) = some 0x00A25 := by decide
theorem test_cmpeqc : cwOf (exec (.cmpeqc 0) (sealedWith 0xD0 0x00A55)) = some 0x00A55 := by decide
theorem test_cmpltc : cwOf (exec (.cmpltc 1) (sealedWith 0xD5 0x00A75)) = some 0x00A75 := by decide
theorem test_cmplec : cwOf (exec (.cmplec 0) (sealedWith 0xD8 0x00AD5)) = some 0x00AD5 := by decide
theorem test_andc : cwOf (exec (.andc 1) (sealedWith 0xE1 0x00B85)) = some 0x00B85 := by decide
theorem test_orc : cwOf (exec (.orc 0) (sealedWith 0xE4 0x00BE5)) = some 0x00BE5 := by decide
theorem test_xorc : cwOf (exec (.xorc 1) (sealedWith 0xE9 0x00B95)) = some 0x00B95 := by decide
theorem test_xnorc : cwOf (exec (.xnorc 0) (sealedWith 0xE8 0x00B95)) = some 0x00B95 := by decide
theorem test_shlc : cwOf (exec (.shlc 1) (sealedWith 0xF1 0x00A85)) = some 0x00A85 := by decide
theorem test_shrc : cwOf (exec (.shrc 0) (sealedWith 0xF4 0x00A95)) = some 0x00A95 := by decide
theorem test_srac : cwOf (exec (.srac 1) (sealedWith 0xF9 0x00AB5)) = some 0x00AB5 := by decide
theorem test_beq : cwOf (exec (.beq 1) (sealedWith 0x71 0x00005)) = some 0x00005 := by decide
theorem test_bne : cwOf (exec (.bne 0) (sealedWith 0x74 0x04005)) = some 0x04005 := by decide
theorem test_ldr : cwOf (exec (.ldr 1) (sealedWith 0x7D 0x015A5)) = some 0x015A5 := by decide
theorem test_jmp : cwOf (exec (.jmp 0) (sealedWith 0x6C 0x08005)) = some 0x08005 := by decide
/-- L2-T9: irq on BEQ with zero set. -/
theorem test_irq : cwOf (exec (.irq 0x1C 1) (sealedWith 0x73 0x10007)) = some 0x10007 := by decide
/-- L2-T2: the highest illegal opcode below JMP. -/
theorem test_illegal : cwOf (exec (.illegal 0x1A 1) (sealedWith 0x69 0x0C007)) = some 0x0C007 := by decide
/-- R128's example: with XOR instantiated last, XOR's address holds XOR's word. -/
theorem test_xor_when_last : cwOf (exec (.xor 0) (sealedWith 0xA8 0x00365)) = some 0x00365 := by decide
/-- A row reads its own address only. -/
theorem test_add_reads_its_zero_bit : cwOf (exec (.add 1) (sealedWith 0x80 0x00205)) = some 0 := by decide

/-! ## The reference image (section 3) -/

theorem test_image_two_register_words :
    [0x80, 0x84, 0x88, 0x90, 0x94, 0x98, 0xA0, 0xA4, 0xA8, 0xB0, 0xB4, 0xB8].map finalWord =
      [0x00205, 0x00215, 0x00225, 0x00255, 0x00275, 0x002D5, 0x00385, 0x003E5, 0x00395, 0x00285, 0x00295, 0x002B5] := by decide
theorem test_image_constant_words :
    [0xC0, 0xC4, 0xC8, 0xD0, 0xD4, 0xD8, 0xE0, 0xE4, 0xE8, 0xF0, 0xF4, 0xF8].map finalWord =
      [0x00A05, 0x00A15, 0x00A25, 0x00A55, 0x00A75, 0x00AD5, 0x00B85, 0x00BE5, 0x00B95, 0x00A85, 0x00A95, 0x00AB5] := by decide
theorem test_image_branch_load_jump_words :
    [0x70, 0x71, 0x74, 0x75, 0x7C, 0x7D, 0x6C, 0x6D].map finalWord =
      [0x04005, 0x00005, 0x04005, 0x00005, 0x015A5, 0x015A5, 0x08005, 0x08005] := by decide
/-- L2-T1 to L2-T10. -/
theorem test_image_trap_words :
    [0x00, 0x69, 0x78, 0x8C, 0xAC, 0xFC, 0x02, 0x83, 0x73, 0xFF].map finalWord =
      [0x0C007, 0x0C007, 0x0C007, 0x0C007, 0x0C007, 0x0C007, 0x10007, 0x10007, 0x10007, 0x10007] := by decide
/-- Section 3's image check: the sum of the 256 words. -/
theorem test_image_sum : (allAddresses.map fun a => (finalWord a).toNat).sum = 0xB8F390 := by decide +kernel

/-! ## The builder's operations (vectors of sections 2.3 and 2.4) -/

/-- R87's example: after CREATE, `rom[0x80] = 0` and the phase is Building. -/
theorem test_create :
    (stateOf (exec .create emptyStart)).map (fun t => (t.rom.read 0x80, t.phase, t.stepIndex, t.isWritten 0x80)) =
      some (0, some .building, 0, false) := by decide
/-- R29: no transition leaves Sealed. -/
theorem test_create_sealed : faultOf (exec .create refState) = some (.createOverImage .sealed) := by decide
/-- L2-W1. -/
theorem test_program_writes :
    (stateOf (exec (.program 0x20 0 0 (aluConfig 0 0)) State.reset)).map
      (fun t => (t.rom, t.isWritten 0x80, t.isWritten 0x81, t.stepIndex, t.phase)) =
      some ([(0x80, 0x00205)], true, false, 1, some .building) := by rfl
/-- L2-W7: the lowest offset is reported. -/
theorem test_program_overflow :
    (stateOf (exec (.program 0x20 0 0 { pcsel := 8, alufn := 32, moe := 2 }) State.reset)).map State.phase =
      some (some (.aborted (.fieldOverflow 0x80 0x20 0 0 .moe 2 1))) := by decide
/-- L2-S3 at one step: the least unwritten address. -/
theorem test_seal_incomplete :
    (stateOf (exec .sealImage lastMissing)).map State.phase = some (some (.aborted (.incompleteImage 0xFF))) := by decide +kernel
/-- L2-S7. -/
theorem test_read : outputOf (exec (.read 0x80) (sealedWith 0x80 0x00205)) = some (.word 0x00205) := by decide
/-- L2-S8. -/
theorem test_read_out_of_range : faultOf (exec (.read 256) refState) = some (.readOutOfRange 256) := by decide
/-- L3-5: (0x1C, 0, 0) BEQ. -/
theorem test_lookup :
    outputOf (exec (.lookup 0x1C 0 0) (sealedWith 0x70 0x04005)) = some (.port 0x04005 { werf := 1, pcsel := 1 }) := by decide
theorem test_lookup_before_seal : faultOf (exec (.lookup 0x20 0 1) State.reset) = some (.readBeforeBuildComplete 0x81) := by decide
/-- L2-P13. -/
theorem test_unpack : outputOf (exec (.unpack 0x1C000) abortedState) = some (.fields { moe := 0, pcsel := 7 }) := by decide

/-! ## The image of memory -/

/-- A write of the fill's value removes the cell, so equal images are equal lists. -/
theorem test_write_zero_removes : Memory.write [(1, 5), (3, 7), (9, 2)] 3 0 = [(1, 5), (9, 2)] := by decide
theorem test_write_keeps_order : Memory.write [(1, 5), (9, 2)] 3 7 = [(1, 5), (3, 7), (9, 2)] := by decide

/-! ## Stepping and the dump -/

/-- The first step from reset is the first PROGRAM of DefaultFill (R100, R101). -/
theorem test_first_step : (stateOf (step State.reset)).map (fun t => (t.rom, t.stepIndex)) = some ([(0, 0x0C007)], 1) := by
  rfl
/-- A placed word runs in the next step. -/
theorem test_placed_word : cwOf (step ((sealedWith 0x6D 0x08005).withFetchWord 8 0x6D)) = some 0x08005 := by decide
/-- R86's form of the word of R104. -/
theorem test_hexWord : hexWord 0x10007 = "10007" := by decide

/-! ## Witnesses: states and operands that meet the hypotheses of the statements -/

/-- Every field at its maximum (vector L2-P12). -/
def fullConfig : FieldConfig :=
  { moe := 1, wasel := 1, werf := 1, wr := 1, alufn := 31, wdsel := 3, bsel := 1, asel := 1, ra2sel := 1, pcsel := 7 }

/-- The hypothesis of ResetIsWhatCreateLeaves, CreateMakesAnEmptyImage and OperationsBeforeCreateFault, and of
CreateWhereAnImageExistsFaults in each phase. -/
theorem witness_CreateStatements :
    emptyStart.phase = none ∧ Instr.sealImage ≠ .create ∧ (∀ w, Instr.sealImage ≠ .unpack w) ∧
      State.reset.phase = some .building ∧ refState.phase = some .sealed ∧
      abortedState.phase = some (.aborted (.incompleteImage 0)) :=
  ⟨rfl, by decide, (fun _ h => by cases h), rfl, rfl, rfl⟩

/-- CREATE and then a PROGRAM of the highest address (0x3F, 1, 1) with every field at its maximum. -/
theorem witness_EveryWordHoldsValidatedFields :
    emptyStart.phase = none ∧
      (stateOf (runOps [.create, .program 0x3F 1 1 fullConfig] emptyStart)).map (fun t => (t.rom, t.isWritten 0xFF)) =
        some ([(0xFF, 0x1FFFF)], true) := ⟨rfl, rfl⟩

theorem witness_StepRunsTheDecodedRow :
    refState.pending = [] ∧
      decodeAddress (formAddress refState.portOpcode refState.portIrq refState.portZ) = .illegal 0 0 ∧
      State.reset.pending = .program 0 0 0 illegalConfig :: referenceBuild.tail := ⟨rfl, by decide, rfl⟩

theorem witness_FormedNumberIsTheSumAndAliases :
    63 < 64 ∧ 1 < 2 ∧ State.reset.phase = some .building := by decide

theorem witness_UnpackIsTheExactInverseOfPack : fullConfig.Fits := by decide

theorem witness_DecodeOfEncodeIsTheRow :
    (Instr.illegal 0x3F 1).wellFormed = true ∧ encode (.illegal 0x3F 1) = some 0xFD ∧
      (∀ z, Instr.illegal 0x3F 1 ≠ .xor z) ∧ (∀ z, Instr.illegal 0x3F 1 ≠ .xorc z) ∧
      encode (.xor 1) = some 0xA9 ∧ encode (.xorc 1) = some 0xE9 := by decide

theorem witness_EveryAddressRowAnswersItsWord : encode (.irq 0x3F 1) = some 0xFF ∧ refState.phase = some .sealed := by decide

/-- The hypothesis of TwoRegisterRows, ConstantRows, BranchRows, LoadAndJumpRows, TrapRows and the third clause of
ClassRulesNeverTouchInterruptAddresses. -/
theorem witness_ReferenceImage : refState.ReferenceImage := ⟨rfl, by decide +kernel⟩

theorem witness_TrapRowsAnswerTheirWords : (0x00 : Opcode) ∈ illegalOpcodes ∧ (0x3F : Opcode) ∈ illegalOpcodes := by decide

theorem witness_ReadAndLookupAnswerTheWord : refState.phase = some .sealed ∧ 0 < 256 ∧ 255 < 256 := by decide

theorem witness_ReadsBeforeSealOrOutOfRangeFault :
    State.reset.phase = some .building ∧ encode (.add 0) = some 0x80 ∧ refState.phase = some .sealed ∧ 256 ≤ 256 := by decide

/-- Two sealed machines that read alike and differ in their marks. -/
theorem witness_PortAnswerDependsOnInputsAndImageOnly :
    refState.phase = some .sealed ∧ { refState with stepIndex := 0 } ≠ refState ∧ refState.pending = [] ∧
      ∀ a : Address, refState.rom.read a.toNat = { refState with stepIndex := 0 }.rom.read a.toNat :=
  ⟨rfl, fun h => absurd (congrArg State.stepIndex h) (by decide), rfl, fun _ => rfl⟩

theorem witness_ProgramReplacesTheWholeWord :
    State.reset.phase = some .building ∧ State.reset.rom.wf ∧ 63 < 64 ∧ 1 < 2 ∧ fullConfig.Fits ∧ 7 < 8 := by decide

theorem witness_ProgramRaisesAddressOutOfRange :
    State.reset.phase = some .building ∧ (64 ≤ 64 ∨ 2 ≤ 0 ∨ 2 ≤ 0) ∧ (64 ≤ 0 ∨ 2 ≤ 2 ∨ 2 ≤ 0) ∧ (64 ≤ 0 ∨ 2 ≤ 0 ∨ 2 ≤ 2) := by decide

/-- Vectors L2-W4 and L2-W6: the highest and the lowest field, each just out of range. -/
theorem witness_ProgramRaisesFieldOverflow :
    State.reset.phase = some .building ∧
      (2 ^ Field.pcsel.width ≤ ({ pcsel := 8 } : FieldConfig).get .pcsel ∧
        ∀ g ∈ Field.all, g.offset < Field.pcsel.offset → ({ pcsel := 8 } : FieldConfig).get g < 2 ^ g.width) ∧
      (2 ^ Field.moe.width ≤ ({ moe := 2 } : FieldConfig).get .moe ∧
        ∀ g ∈ Field.all, g.offset < Field.moe.offset → ({ moe := 2 } : FieldConfig).get g < 2 ^ g.width) := by decide

theorem witness_ProgramOutsideBuildingFaults :
    refState.phase = some .sealed ∧ abortedState.phase = some (.aborted (.incompleteImage 0)) := by decide

theorem witness_ReprogrammingKeepsTheLastWord :
    State.reset.phase = some .building ∧ State.reset.rom.wf ∧ fullConfig.Fits ∧ ({ moe := 0 } : FieldConfig).Fits := by decide

theorem witness_SealFinishesACompleteImage :
    completeState.phase = some .building ∧ ∀ a : Address, completeState.isWritten a = true :=
  ⟨rfl, fun a => by simp [State.isWritten, completeState]⟩

theorem witness_SealRaisesIncompleteImage :
    (State.reset.phase = some .building ∧ State.reset.isWritten 0 = false ∧
      ∀ b : Address, b.toNat < (0 : Address).toNat → State.reset.isWritten b = true) ∧
    (lastMissing.phase = some .building ∧ lastMissing.isWritten 0xFF = false ∧
      ∀ b : Address, b.toNat < (0xFF : Address).toNat → lastMissing.isWritten b = true) := by decide +kernel

theorem witness_SealOutsideBuilding :
    refState.phase = some .sealed ∧ abortedState.phase = some (.aborted (.incompleteImage 0)) := by decide

theorem witness_AbortedBuildAnswersNothing :
    abortedState.phase = some (.aborted (.incompleteImage 0)) ∧ (∀ w, Instr.read 0 ≠ .unpack w) ∧
      ∀ w, Instr.create ≠ .unpack w :=
  ⟨rfl, (fun _ h => by cases h), fun _ h => by cases h⟩

/-- An aborted machine on which an UNPACK still waits takes a step. -/
theorem witness_AbortIsTerminal :
    { abortedState with pending := [.unpack 0] }.phase = some (.aborted (.incompleteImage 0)) ∧
      (stateOf (Host.Core.run Sys2Proof.core 1 { abortedState with pending := [.unpack 0] })).isSome = true := ⟨rfl, rfl⟩

theorem witness_OnlyCreateAndProgramChangeTheImage :
    exec .sealImage completeState = .next completeState.sealedNow ∧ Instr.sealImage ≠ .create ∧
      isProgram .sealImage = false := by
  refine ⟨?_, by decide, rfl⟩
  show completeState.sealImage = _
  unfold State.sealImage State.sealBuilding
  rw [State.leastUnwritten_eq_none.mpr witness_SealFinishesACompleteImage.2]
  rfl

theorem witness_SealedImageNeverChanges :
    refState.phase = some .sealed ∧ (stateOf (Host.Core.run Sys2Proof.core 2 refState)).isSome = true := ⟨rfl, rfl⟩

/-- One change of phase for each of the three clauses. -/
theorem witness_PhaseChangesOnlyAsTheTableSays :
    exec .create emptyStart = .next emptyStart.created ∧ emptyStart.created.phase ≠ emptyStart.phase ∧
      exec .sealImage completeState = .next completeState.sealedNow ∧ completeState.sealedNow.phase ≠ completeState.phase ∧
      exec (.program 64 0 0 {}) State.reset = .next (State.reset.raise (.addressOutOfRange 64 0 0 256)) ∧
      (State.reset.raise (.addressOutOfRange 64 0 0 256)).phase ≠ State.reset.phase :=
  ⟨rfl, by decide, witness_OnlyCreateAndProgramChangeTheImage.1, by decide, rfl, by decide⟩

/-- The empty image meets the invariant's first two clauses, and a step from it succeeds. -/
theorem witness_StepKeepsTheInvariant :
    completeState.Inv ∧ (stateOf (step completeState)).isSome = true :=
  ⟨⟨Memory.wf_nil, fun _ _ => rfl, fun h => by cases h⟩, rfl⟩

theorem witness_AluOpProgramsFourAddresses :
    State.reset.phase = some .building ∧ State.reset.rom.wf ∧ 0x2E < 64 ∧ 0x2E &&& 16 = 0 ∧ 31 < 32 := by decide

theorem witness_FillsOverwriteTheirHalf : State.reset.phase = some .building ∧ State.reset.rom.wf := by decide

theorem witness_BranchLoadJumpProgramTwoAddresses : State.reset.phase = some .building ∧ State.reset.rom.wf ∧ 63 < 64 := by decide

/-- The reference order meets the hypothesis on orders, at reset (also of AnyAluOrderBuildsItsClosedForm). -/
theorem witness_ClassRulesNeverTouchInterruptAddresses :
    (∀ e ∈ Config.aluOrder, e.base < 64 ∧ e.fn < 32) ∧ State.reset.phase = some .building ∧ State.reset.rom.wf ∧
      addressIrq 0x82 = 1 := by decide

theorem witness_ZeroBitChangesOnlyBranchWords :
    .program 0x1C 1 0 (branchConfig 1) ∈ branchOp 0x1C ∧ (∃ base fn, aluOp 0 0 = aluOp base fn) ∧ refState.ReferenceImage ∧
      ¬ ((1 : Bit) = 0 ∧ ((0x1C : Opcode) = 0x1C ∨ (0x1C : Opcode) = 0x1D)) :=
  ⟨by decide, ⟨0, 0, rfl⟩, witness_ReferenceImage, by decide⟩

theorem witness_AnyAluOrderBuildsItsClosedForm :
    (∀ e ∈ ([⟨0x3F, 31⟩] : List AluEntry), e.base < 64 ∧ e.fn < 32) ∧ State.reset.phase = some .building ∧ State.reset.rom.wf := by
  decide

theorem witness_SequencerPositionIndexesTheBuildList : 0 ≤ 316 ∧ 316 ≤ 316 := by decide

/-- At reset, 316 PROGRAMs wait before SEAL; here the first two of them. -/
theorem witness_EachWaitingProgramAdvancesTheSequencer :
    State.reset.phase = some .building ∧
      State.reset.pending = [.program 0 0 0 illegalConfig, .program 0 1 0 illegalConfig] ++ referenceBuild.drop 2 ∧
      illegalConfig.Fits := ⟨rfl, rfl, by decide⟩

/-- A list of one PROGRAM that ends sealed. -/
theorem witness_SealedStepIsTheBuildListLength :
    (∀ i ∈ [Instr.program 0 0 0 {}], isProgram i = true) ∧ completeState.phase = some .building ∧
      (stateOf (runOps ([.program 0 0 0 {}] ++ [.sealImage]) completeState)).map State.phase = some (some .sealed) := by
  decide +kernel

theorem witness_OnlyTheCollisionDependsOnAluOrder :
    Config.aluOrder.reverse.Perm Config.aluOrder ∧ addressOpcode 0x80 ≠ 0x2A ∧ addressOpcode 0x80 ≠ 0x3A :=
  ⟨List.reverse_perm _, by decide, by decide⟩

theorem witness_ArtifactAndDumpListEveryAddress : refState.phase = some .sealed ∧ State.reset.phase ≠ some .sealed := by decide

end Sys2Proof.Tests
end

section
/-! The scope of the block: an address row is a read of its own address (R14, R95), and nothing reaches the four pieces of the
spec's state once the build has ended (R28, R29, R38, R159, R164). -/

namespace Sys2Proof.Machine

/-! ## Address rows -/

/-- An encoded row has inputs, and its address is the one they form. -/
theorem encode_eq_some {i : Instr} {a : Address} (h : encode i = some a) :
    ∃ opcode irq z, i.inputs = some (opcode, irq, z) ∧ formAddress opcode irq z = a := by
  obtain ⟨⟨opcode, irq, z⟩, hi, ha⟩ := Option.map_eq_some_iff.mp h
  exact ⟨opcode, irq, z, hi, ha⟩

/-- Settles O18: the row presents its inputs at the read port, which in phase Sealed always answers the word at the address they
form. -/
theorem everyAddressRowAnswersItsWord : Obligations.EveryAddressRowAnswersItsWord := by
  intro i a s ha hs
  obtain ⟨opcode, irq, z, hi, rfl⟩ := encode_eq_some ha
  calc exec i s = s.present opcode irq z := exec_of_inputs hi
    _ = _ := State.present_sealed hs opcode irq z

/-! ## After the build has ended -/

/-- The build has ended: an image was made, and it is no longer being built (the phases Sealed and Aborted of R28). -/
def State.Ended (s : State) : Prop := s.phase ≠ none ∧ s.phase ≠ some .building

theorem State.ended_of_sealed {s : State} (h : s.phase = some .sealed) : s.Ended := by simp [State.Ended, h]

theorem State.ended_of_aborted {s : State} {e : BuildError} (h : s.phase = some (.aborted e)) : s.Ended := by
  simp [State.Ended, h]

/-- Two states agree on the four pieces the spec gives the block: `rom`, `written`, `phase` and `step` (R21, R31, R28, R26). -/
structure SameImage (s t : State) : Prop where
  rom : t.rom = s.rom
  written : t.written = s.written
  phase : t.phase = s.phase
  stepIndex : t.stepIndex = s.stepIndex

variable {s t u : State}

theorem SameImage.refl (s : State) : SameImage s s := ⟨rfl, rfl, rfl, rfl⟩

theorem SameImage.trans (h : SameImage s t) (h' : SameImage t u) : SameImage s u :=
  ⟨h'.rom.trans h.rom, h'.written.trans h.written, h'.phase.trans h.phase, h'.stepIndex.trans h.stepIndex⟩

theorem SameImage.ended (h : SameImage s t) (hs : s.Ended) : t.Ended := by
  unfold State.Ended
  rw [h.phase]
  exact hs

/-- The artifact is a function of the phase and the image. -/
theorem SameImage.artifact (h : SameImage s t) : t.artifact = s.artifact := by
  unfold State.artifact
  rw [h.phase, h.rom]

theorem State.artifact_of_aborted {e : BuildError} (h : s.phase = some (.aborted e)) : s.artifact = none := by
  simp [State.artifact, h]

/-- Of the six effects, only those that belong to CREATE's start or to phase Building change the image. -/
theorem Effect.sameImage_of_ended (h : Effect s t) (hs : s.Ended) : SameImage s t := by
  obtain ⟨hnone, hbuilding⟩ := hs
  cases h with
  | same => exact .refl s
  | answered o => exact ⟨rfl, rfl, rfl, rfl⟩
  | created hp => exact absurd hp hnone
  | wrote _ _ hp => exact absurd hp hbuilding
  | raised _ hp => exact absurd hp hbuilding
  | finished hp => exact absurd hp hbuilding

theorem step_sameImage_of_ended (h : step s = .next t) (hs : s.Ended) : SameImage s t := by
  obtain ⟨is, heff⟩ := step_effect h
  have hpending : SameImage s (s.withPending is) := ⟨rfl, rfl, rfl, rfl⟩
  exact hpending.trans (heff.sameImage_of_ended (hpending.ended hs))

/-- However many steps run once the build has ended, `rom`, `written`, `phase` and `step` stay. -/
theorem run_sameImage_of_ended {n : Nat} (h : Host.Core.run Sys2Proof.core n s = .next t) (hs : s.Ended) :
    SameImage s t :=
  run_keeps (P := SameImage s) (fun _ _ hu hstep => hu.trans (step_sameImage_of_ended hstep (hu.ended hs)))
    (SameImage.refl s) h

/-- Settles O37: an aborted build has ended, so a run keeps its phase, with the first error in it, and an aborted phase has no
artifact. -/
theorem abortIsTerminal : Obligations.AbortIsTerminal := by
  intro n s t e hs hrun
  have h := run_sameImage_of_ended hrun (State.ended_of_aborted hs)
  have ht : t.phase = some (.aborted e) := h.phase.trans hs
  exact ⟨ht, h.rom, h.written, h.stepIndex, State.artifact_of_aborted ht⟩

/-- Settles O39: a sealed build has ended, so a run keeps its image, and with it the artifact. -/
theorem sealedImageNeverChanges : Obligations.SealedImageNeverChanges := by
  intro n s t hs hrun
  have h := run_sameImage_of_ended hrun (State.ended_of_sealed hs)
  exact ⟨h.rom, h.written, h.phase.trans hs, h.stepIndex, h.artifact⟩

end Sys2Proof.Machine
end

section
/-! Facts that the statements about the state rest on: an address and a word as sums of their parts, which instruction causes
which transition, running a list of operations, and the PROGRAMs of the encoder, which all succeed. -/

namespace Sys2Proof

/-! ## Addresses and words -/

theorem allAddresses_length : allAddresses.length = 256 := by
  rw [allAddresses, List.length_map, List.length_range]

/-- Each address stands at its own index. -/
theorem allAddresses_getElem? (a : Address) : allAddresses[a.toNat]? = some a := by
  rw [allAddresses, List.getElem?_map, List.getElem?_range a.isLt, Option.map_some, BitVec.ofNat_toNat, BitVec.setWidth_eq]

/-- Bits below `i` and a number shifted up by `i` do not overlap, so their OR is their sum. -/
theorem or_shiftLeft_eq_add {i b : Nat} (a : Nat) (h : b < 2 ^ i) : b ||| a <<< i = b + 2 ^ i * a := by
  rw [Nat.or_comm, ← Nat.shiftLeft_add_eq_or_of_lt h, Nat.shiftLeft_eq]
  ring

/-- In range, the three sub-fields of an address do not overlap (R61). -/
theorem formedNumber_eq_sum {opcode irq z : Nat} (hi : irq < 2) (hz : z < 2) :
    formedNumber opcode irq z = 4 * opcode + 2 * irq + z := by
  have hlow : z ||| irq <<< 1 = z + 2 ^ 1 * irq := or_shiftLeft_eq_add irq (by omega)
  calc formedNumber opcode irq z = (z ||| irq <<< 1) ||| opcode <<< 2 := by
        rw [formedNumber, Nat.or_assoc, Nat.or_comm, Nat.or_comm (irq <<< 1)]
    _ = z + 2 ^ 1 * irq + 2 ^ 2 * opcode := by rw [hlow, or_shiftLeft_eq_add opcode (by omega)]
    _ = 4 * opcode + 2 * irq + z := by omega

@[simp] theorem unpack_get (w : ControlWord) (f : Field) : (unpack w).get f = fieldOf w f := by cases f <;> rfl

theorem fieldOf_lt (w : ControlWord) (f : Field) : fieldOf w f < 2 ^ f.width := BitVec.isLt _

theorem fieldOf_eq_div_mod (w : ControlWord) (f : Field) : fieldOf w f = w.toNat / 2 ^ f.offset % 2 ^ f.width := by
  rw [fieldOf, BitVec.extractLsb'_toNat, Nat.shiftRight_eq_div_pow]

theorem FieldConfig.ext_get {F G : FieldConfig} (h : ∀ f, F.get f = G.get f) : F = G := by
  cases F
  cases G
  simp only [FieldConfig.mk.injEq]
  exact ⟨h .moe, h .wasel, h .werf, h .wr, h .alufn, h .wdsel, h .bsel, h .asel, h .ra2sel, h .pcsel⟩

theorem FieldConfig.fits_iff {F : FieldConfig} : F.Fits ↔ ∀ f, F.get f < 2 ^ f.width :=
  ⟨fun h f => h f f.mem_all, fun h f _ => h f⟩

/-- The bounds of R90, field by field. -/
theorem FieldConfig.Fits.bounds {F : FieldConfig} (h : F.Fits) :
    F.moe < 2 ∧ F.wasel < 2 ∧ F.werf < 2 ∧ F.wr < 2 ∧ F.alufn < 32 ∧ F.wdsel < 4 ∧ F.bsel < 2 ∧ F.asel < 2 ∧
      F.ra2sel < 2 ∧ F.pcsel < 8 := by
  have h := FieldConfig.fits_iff.mp h
  exact ⟨h .moe, h .wasel, h .werf, h .wr, h .alufn, h .wdsel, h .bsel, h .asel, h .ra2sel, h .pcsel⟩

/-- Values that fit do not overlap in the word (R62, R65). -/
theorem pack_toNat {F : FieldConfig} (h : F.Fits) :
    (pack F).toNat = F.moe + 2 * F.wasel + 4 * F.werf + 8 * F.wr + 16 * F.alufn + 512 * F.wdsel + 2048 * F.bsel +
      4096 * F.asel + 8192 * F.ra2sel + 16384 * F.pcsel := by
  obtain ⟨hmoe, hwasel, hwerf, hwr, halufn, hwdsel, hbsel, hasel, hra2sel, hpcsel⟩ := h.bounds
  rw [pack, Nat.shiftLeft_zero, or_shiftLeft_eq_add F.wasel (by omega), or_shiftLeft_eq_add F.werf (by omega),
    or_shiftLeft_eq_add F.wr (by omega), or_shiftLeft_eq_add F.alufn (by omega), or_shiftLeft_eq_add F.wdsel (by omega),
    or_shiftLeft_eq_add F.bsel (by omega), or_shiftLeft_eq_add F.asel (by omega), or_shiftLeft_eq_add F.ra2sel (by omega),
    or_shiftLeft_eq_add F.pcsel (by omega), BitVec.toNat_ofNat, Nat.mod_eq_of_lt (by omega)]
  norm_num

/-- Unpacking gives back validated fields (R66, R97). -/
theorem unpack_pack {F : FieldConfig} (h : F.Fits) : unpack (pack F) = F := by
  obtain ⟨hmoe, hwasel, hwerf, hwr, halufn, hwdsel, hbsel, hasel, hra2sel, hpcsel⟩ := h.bounds
  refine FieldConfig.ext_get fun f => ?_
  rw [unpack_get, fieldOf_eq_div_mod, pack_toNat h]
  cases f <;> simp only [Field.offset, Field.width, FieldConfig.get] <;> omega

end Sys2Proof

namespace Sys2Proof.Machine

variable {s t u : State} {i : Instr}

/-! ## Which instruction has which effect -/

theorem succeeds_program {opcode z irq : Nat} {F : FieldConfig} :
    Succeeds (.program opcode z irq F) ↔ opcode < 64 ∧ irq < 2 ∧ z < 2 ∧ F.Fits := by
  rw [Succeeds, subFieldsLegal_iff, and_assoc, and_assoc]

theorem Succeeds.isProgram (h : Succeeds i) : ∃ opcode z irq F, i = .program opcode z irq F := by
  cases i with
  | program opcode z irq F => exact ⟨opcode, z, irq, F, rfl⟩
  | _ => exact h.elim

/-- The address of a PROGRAM that succeeds is its formed number. -/
theorem Succeeds.address_toNat {opcode z irq : Nat} {F : FieldConfig} (h : Succeeds (.program opcode z irq F)) :
    (BitVec.ofNat 8 (formedNumber opcode irq z)).toNat = 4 * opcode + 2 * irq + z := by
  obtain ⟨ho, hi, hz, -⟩ := succeeds_program.mp h
  rw [BitVec.toNat_ofNat, formedNumber_eq_sum hi hz]
  omega

/-- `Effect` with the instruction that causes it: the transitions of R29's table, and the answers, which change no piece of the
image. -/
inductive Transition (s : State) : Instr → State → Prop where
  | created : s.phase = none → Transition s .create s.created
  | wrote {opcode z irq : Nat} {F : FieldConfig} : s.phase = some .building → Succeeds (.program opcode z irq F) →
      Transition s (.program opcode z irq F) (s.writeWord (BitVec.ofNat 8 (formedNumber opcode irq z)) (pack F))
  | programRaised {opcode z irq : Nat} {F : FieldConfig} (e : BuildError) : s.phase = some .building →
      Transition s (.program opcode z irq F) (s.raise e)
  | finished : s.phase = some .building → (∀ a : Address, s.isWritten a = true) → Transition s .sealImage s.sealedNow
  | sealRaised (e : BuildError) : s.phase = some .building → Transition s .sealImage (s.raise e)
  | sealedAlready : s.phase = some .sealed → Transition s .sealImage s
  | answered {i : Instr} (o : Output) : i ≠ .create → isProgram i = false → Transition s i (s.withOutput o)

theorem Transition.of_program {opcode z irq : Nat} {F : FieldConfig} (h : s.program opcode z irq F = .next t) :
    Transition s (.program opcode z irq F) t := by
  obtain ⟨hp, rfl⟩ := State.program_next h
  obtain ⟨-, e⟩ | ⟨-, f, -, e⟩ | ⟨hl, hF, e⟩ := State.programBuilding_cases s opcode z irq F <;> rw [e]
  · exact .programRaised _ hp
  · exact .programRaised _ hp
  · exact .wrote hp ⟨hl, hF⟩

theorem Transition.of_sealImage (h : s.sealImage = .next t) : Transition s .sealImage t := by
  obtain ⟨hp, rfl⟩ | ⟨hp, ha, rfl⟩ | ⟨hp, a, -, rfl⟩ := State.sealImage_next h
  · exact .sealedAlready hp
  · exact .finished hp ha
  · exact .sealRaised _ hp

theorem Transition.of_present {opcode : Opcode} {irq z : Bit} (hc : i ≠ .create) (hi : isProgram i = false)
    (h : s.present opcode irq z = .next t) : Transition s i t := by
  obtain ⟨-, rfl⟩ := State.present_next h
  exact .answered _ hc hi

/-- Every next state of an instruction is one of its own transitions. -/
theorem exec_transition (h : exec i s = .next t) : Transition s i t := by
  cases i with
  | create => obtain ⟨hp, rfl⟩ := State.create_next h; exact .created hp
  | program => exact .of_program h
  | sealImage => exact .of_sealImage h
  | unpack w => injection h with h; exact h ▸ .answered _ nofun rfl
  | read a => obtain ⟨-, -, rfl⟩ := State.read_next h; exact .answered _ nofun rfl
  | _ => exact .of_present nofun rfl h

/-- The surroundings of the block: an instruction changes neither the waiting operations nor the read port's inputs. -/
theorem Effect.surroundings (h : Effect s t) :
    t.pending = s.pending ∧ t.portOpcode = s.portOpcode ∧ t.portIrq = s.portIrq ∧ t.portZ = s.portZ := by
  cases h <;> exact ⟨rfl, rfl, rfl, rfl⟩

/-! ## What a write does to the words -/

/-- What a successful PROGRAM does to the word of every address. -/
theorem State.read_writeWord (h : s.rom.wf) (a b : Address) (w : ControlWord) :
    (s.writeWord b w).rom.read a.toNat = if a = b then w else s.rom.read a.toNat := by
  rw [State.writeWord_rom, Memory.read_write h]
  exact if_congr BitVec.toNat_inj rfl rfl

/-! ## Operations outside their phase -/

/-- Once an image exists, CREATE faults with its phase. -/
theorem State.create_of_some {p : Phase} (h : s.phase = some p) : s.create = .fault (.createOverImage p) := by
  unfold State.create
  rw [h]

theorem State.sealImage_of_sealed (h : s.phase = some .sealed) : s.sealImage = .next s := by
  unfold State.sealImage
  rw [h]

theorem State.sealImage_of_aborted {e : BuildError} (h : s.phase = some (.aborted e)) :
    s.sealImage = .fault (.buildAborted e) := by
  unfold State.sealImage
  rw [h]

/-- Before CREATE no word can be read. -/
theorem State.readWord_of_none (h : s.phase = none) (a : Nat) : s.readWord a = .error .noImage := by
  unfold State.readWord
  rw [h]

theorem State.read_of_none (h : s.phase = none) (a : Nat) : s.read a = .fault .noImage := by
  unfold State.read
  rw [State.readWord_of_none h]

theorem State.present_of_none (h : s.phase = none) (opcode : Opcode) (irq z : Bit) :
    s.present opcode irq z = .fault .noImage := by
  unfold State.present
  rw [State.readWord_of_none h]

theorem State.program_of_none (h : s.phase = none) (opcode z irq : Nat) (F : FieldConfig) :
    s.program opcode z irq F = .fault .noImage := by
  unfold State.program
  rw [h]

theorem State.sealImage_of_none (h : s.phase = none) : s.sealImage = .fault .noImage := by
  unfold State.sealImage
  rw [h]

/-! ## Running a list of operations -/

/-- A run of a list that answers a next state begins with an operation that does. -/
theorem runOps_cons_next {rest : List Instr} (h : runOps (i :: rest) s = .next t) :
    ∃ u, exec i s = .next u ∧ runOps rest u = .next t := by
  unfold runOps at h
  split at h
  · next u hu => exact ⟨u, hu, h⟩
  · cases h
  · cases h

/-- What every operation of a list keeps, running the list keeps. -/
theorem runOps_keeps {P : State → Prop} {ops : List Instr} (hP : ∀ i ∈ ops, ∀ u v, P u → exec i u = .next v → P v)
    (hs : P s) (h : runOps ops s = .next t) : P t := by
  induction ops generalizing s with
  | nil => injection h with h; exact h ▸ hs
  | cons i rest ih =>
    obtain ⟨u, hu, hrest⟩ := runOps_cons_next h
    exact ih (fun j hj => hP j (List.mem_cons_of_mem i hj)) (hP i List.mem_cons_self s u hs hu) hrest

/-- No list of operations changes the image once the build has ended. -/
theorem runOps_sameImage_of_ended {ops : List Instr} (h : runOps ops s = .next t) (hs : s.Ended) : SameImage s t :=
  runOps_keeps (P := SameImage s)
    (fun _ _ _ _ hu hexec => hu.trans ((exec_effect hexec).sameImage_of_ended (hu.ended hs))) (SameImage.refl s) h

/-! ## A waiting PROGRAM -/

/-- A waiting PROGRAM that succeeds is carried out by the next step. -/
theorem step_waiting_program {opcode z irq : Nat} {F : FieldConfig} {rest : List Instr}
    (hp : s.pending = .program opcode z irq F :: rest) (hs : s.phase = some .building)
    (h : Succeeds (.program opcode z irq F)) :
    step s =
      .next ((s.withPending rest).writeWord (BitVec.ofNat 8 (formedNumber opcode irq z)) (pack F)) := by
  rw [step_of_pending hp]
  exact exec_program_succeeds hs h

/-! ## Every PROGRAM of the encoder succeeds -/

/-- The two PROGRAMs of an opcode, at zero 0 and 1: the shape in which the fills and all classes but ALUOp write. -/
theorem zeroPair_succeeds {opcode irq : Nat} {F G : FieldConfig} (ho : opcode < 64) (hi : irq < 2) (hF : F.Fits)
    (hG : G.Fits) : ∀ i ∈ [Instr.program opcode 0 irq F, .program opcode 1 irq G], Succeeds i := by
  simp only [List.forall_mem_cons, succeeds_program]
  exact ⟨⟨ho, hi, by omega, hF⟩, ⟨ho, hi, by omega, hG⟩, nofun⟩

theorem fillAll_succeeds {irq : Nat} {F : FieldConfig} (hi : irq < 2) (hF : F.Fits) : ∀ i ∈ fillAll irq F, Succeeds i := by
  intro i hmem
  obtain ⟨opcode, ho, hpair⟩ := List.mem_flatMap.mp hmem
  exact zeroPair_succeeds (List.mem_range.mp ho) hi hF hF i hpair

theorem branchOp_succeeds {op : Nat} (h : op < 64) : ∀ i ∈ branchOp op, Succeeds i :=
  zeroPair_succeeds h (by decide) (by decide) (by decide)

theorem loadOp_succeeds {op : Nat} (h : op < 64) : ∀ i ∈ loadOp op, Succeeds i :=
  zeroPair_succeeds h (by decide) (by decide) (by decide)

theorem jumpOp_succeeds {op : Nat} (h : op < 64) : ∀ i ∈ jumpOp op, Succeeds i :=
  zeroPair_succeeds h (by decide) (by decide) (by decide)

theorem aluConfig_fits {fn bsel : Nat} (hfn : fn < 32) (hb : bsel < 2) : (aluConfig fn bsel).Fits := by
  refine FieldConfig.fits_iff.mpr fun f => ?_
  cases f <;> simp only [aluConfig, FieldConfig.get, Field.width] <;> omega

/-- Both forms of an instantiation in range have their opcode in range (R110). -/
theorem aluOp_succeeds {base fn : Nat} (hbase : base < 64) (hfn : fn < 32) : ∀ i ∈ aluOp base fn, Succeeds i := by
  have hconst : base ||| 0b10000 < 2 ^ 6 := Nat.or_lt_two_pow hbase (by decide)
  have hF (bsel : Nat) (hb : bsel < 2) : (aluConfig fn bsel).Fits := aluConfig_fits hfn hb
  simp only [aluOp, List.forall_mem_cons, succeeds_program]
  exact ⟨⟨hbase, by decide, by decide, hF 0 (by decide)⟩, ⟨hconst, by decide, by decide, hF 1 (by decide)⟩,
    ⟨hbase, by decide, by decide, hF 0 (by decide)⟩, ⟨hconst, by decide, by decide, hF 1 (by decide)⟩, nofun⟩

theorem classOps_succeeds {order : List AluEntry} (h : ∀ e ∈ order, e.base < 64 ∧ e.fn < 32) :
    ∀ i ∈ classOps order, Succeeds i := by
  have halu : ∀ i ∈ order.flatMap fun e => aluOp e.base e.fn, Succeeds i := by
    intro i hmem
    obtain ⟨e, he, hi⟩ := List.mem_flatMap.mp hmem
    obtain ⟨hbase, hfn⟩ := h e he
    exact aluOp_succeeds hbase hfn i hi
  simp only [classOps, List.forall_mem_append]
  exact ⟨⟨⟨⟨halu, branchOp_succeeds (by decide)⟩, branchOp_succeeds (by decide)⟩, loadOp_succeeds (by decide)⟩,
    jumpOp_succeeds (by decide)⟩

/-- With every instantiation in range, the encoder's sequence holds only PROGRAMs that succeed. -/
theorem encoderOps_succeeds {order : List AluEntry} (h : ∀ e ∈ order, e.base < 64 ∧ e.fn < 32) :
    ∀ i ∈ encoderOps order, Succeeds i := by
  simp only [encoderOps, List.forall_mem_append]
  exact ⟨⟨fillAll_succeeds (by decide) (by decide), fillAll_succeeds (by decide) (by decide)⟩, classOps_succeeds h⟩

theorem fillAll_length (irq : Nat) (F : FieldConfig) : (fillAll irq F).length = 128 := by
  simp [fillAll, List.length_flatMap, Config.opcodeCount]

theorem classOps_length (order : List AluEntry) : (classOps order).length = 4 * order.length + 8 := by
  simp [classOps, List.length_flatMap, aluOp, branchOp, loadOp, jumpOp, Nat.mul_comm]

/-- The two fills take 128 PROGRAMs each, an instantiation 4, the other classes 8 in all (R100). -/
theorem encoderOps_length (order : List AluEntry) : (encoderOps order).length = 264 + 4 * order.length := by
  rw [encoderOps, List.length_append, List.length_append, defaultFill, interruptOverride, fillAll_length, fillAll_length,
    classOps_length]
  omega

end Sys2Proof.Machine
end

section
/-! The state and its phases: the invariant that every step keeps (R20 to R23), CREATE and the transitions of the phase table
(R29, R37), what the words of `rom` are after any operations (R22), the sequencer (R26) and the artifact (R38). -/

namespace Sys2Proof.Machine

variable {s t u : State} {i : Instr}

/-! ## The invariant -/

/-- The image that CREATE makes meets the invariant. -/
theorem State.created_inv (s : State) : s.created.Inv := ⟨Memory.wf_nil, fun _ _ => rfl, nofun⟩

/-- A successful PROGRAM writes a word only where it also sets the mark. -/
theorem State.Inv.writeWord (h : s.Inv) (hp : s.phase = some .building) (b : Address) (w : ControlWord) :
    (s.writeWord b w).Inv := by
  obtain ⟨hwf, hzero, -⟩ := h
  refine ⟨Memory.wf_write hwf b.isLt, fun a ha => ?_, fun hsealed => ?_⟩
  · rw [State.isWritten_writeWord] at ha
    split at ha
    · cases ha
    · next hab =>
      rw [State.read_writeWord hwf, if_neg hab]
      exact hzero a ha
  · rw [State.writeWord_phase, hp] at hsealed
    cases hsealed

/-- Each of the six effects keeps the invariant. -/
theorem Effect.inv (h : Effect s t) (hs : s.Inv) : t.Inv := by
  obtain ⟨hwf, hzero, hcomplete⟩ := hs
  cases h with
  | same _ => exact ⟨hwf, hzero, hcomplete⟩
  | answered o => exact ⟨hwf, hzero, hcomplete⟩
  | created _ => exact s.created_inv
  | wrote a w hp => exact State.Inv.writeWord ⟨hwf, hzero, hcomplete⟩ hp a w
  | raised e _ => exact ⟨hwf, hzero, nofun⟩
  | finished _ hall => exact ⟨hwf, hzero, fun _ => hall⟩

/-- Settles O41: a step is one of the six effects on the state without the operation it takes from the waiting list, and the
invariant does not speak of that list. -/
theorem stepKeepsTheInvariant : Obligations.StepKeepsTheInvariant := by
  intro s t hs hstep
  obtain ⟨is, heff⟩ := step_effect hstep
  have hpending : (s.withPending is).Inv := hs
  exact heff.inv hpending

/-! ## CREATE and the start -/

/-- CREATE changes nothing of the state at reset. -/
theorem State.reset_created : State.reset.created = State.reset := rfl

/-- Settles O1: reset is its own `created`, which has no mark and lists no word. -/
theorem resetIsWhatCreateLeaves : Obligations.ResetIsWhatCreateLeaves :=
  ⟨fun _ => rfl, fun a => State.reset_created ▸ State.isWritten_created State.reset a, rfl, rfl,
    fun _ hs => State.create_of_none hs⟩

/-- Settles O2: reset is what CREATE leaves, which meets the invariant. -/
theorem resetSatisfiesTheInvariant : Obligations.ResetSatisfiesTheInvariant := by
  have h := State.reset.created_inv
  rwa [State.reset_created] at h

/-- Settles O3, with the empty image as the next state. -/
theorem createMakesAnEmptyImage : Obligations.CreateMakesAnEmptyImage :=
  fun s hs => ⟨s.created, State.create_of_none hs, fun _ => rfl, s.isWritten_created, rfl, rfl, rfl, rfl, rfl, rfl, rfl⟩

/-- Settles O4: CREATE asks only whether there is a phase. -/
theorem createWhereAnImageExistsFaults : Obligations.CreateWhereAnImageExistsFaults :=
  fun _ _ hs => State.create_of_some hs

/-- Settles O5: PROGRAM, SEAL and READ find no phase, and every other row is a presentation at the read port, whose read finds
none. -/
theorem operationsBeforeCreateFault : Obligations.OperationsBeforeCreateFault := by
  intro s i hs hcreate hunpack
  cases i with
  | create => exact absurd rfl hcreate
  | unpack w => exact absurd rfl (hunpack w)
  | program opcode z irq F => exact State.program_of_none hs opcode z irq F
  | sealImage => exact State.sealImage_of_none hs
  | read a => exact State.read_of_none hs a
  | _ => exact State.present_of_none hs _ _ _

/-! ## The transitions of the phase table -/

/-- Settles O35: SEAL reads the phase first. -/
theorem sealOutsideBuilding : Obligations.SealOutsideBuilding :=
  fun _ => ⟨fun hs => State.sealImage_of_sealed hs, fun _ hs => State.sealImage_of_aborted hs⟩

/-- A transition of neither CREATE nor PROGRAM leaves the image, the marks and the step. -/
theorem Transition.image_kept (h : Transition s i t) (hc : i ≠ .create) (hi : isProgram i = false) :
    t.rom = s.rom ∧ t.written = s.written ∧ t.stepIndex = s.stepIndex := by
  cases h with
  | created _ => exact absurd rfl hc
  | wrote _ _ => cases hi
  | programRaised _ _ => cases hi
  | _ => exact ⟨rfl, rfl, rfl⟩

/-- Settles O38: the first clause by the instruction's transition, the others by its effect. -/
theorem onlyCreateAndProgramChangeTheImage : Obligations.OnlyCreateAndProgramChangeTheImage :=
  fun _ _ _ h => ⟨(exec_transition h).image_kept, (exec_effect h).surroundings⟩

/-- Settles O40: of the transitions, a written word, a second SEAL and an answer leave the phase; each other one is a row of the
phase table. -/
theorem phaseChangesOnlyAsTheTableSays : Obligations.PhaseChangesOnlyAsTheTableSays := by
  intro i s t h hne
  cases exec_transition h with
  | created hp => exact .inl ⟨rfl, hp, rfl⟩
  | finished hp hall => exact .inr (.inl ⟨rfl, hp, rfl, hall⟩)
  | programRaised e hp => exact .inr (.inr ⟨.inl rfl, hp, e, rfl, rfl, rfl, rfl⟩)
  | sealRaised e hp => exact .inr (.inr ⟨.inr rfl, hp, e, rfl, rfl, rfl, rfl⟩)
  | _ => exact absurd rfl hne

/-! ## The words of `rom` -/

/-- An address holds the word of a PROGRAM of it among `ops`, validated, and is marked (R22, R31, R90). -/
def State.Programmed (ops : List Instr) (s : State) (a : Address) : Prop :=
  ∃ opcode z irq F, .program opcode z irq F ∈ ops ∧ Succeeds (.program opcode z irq F) ∧
    4 * opcode + 2 * irq + z = a.toNat ∧ s.isWritten a = true ∧ s.rom.read a.toNat = pack F

/-- Every word of `rom` is the 0 of an unwritten address or comes from a PROGRAM among `ops` (R22, R23). -/
def State.WordsFrom (ops : List Instr) (s : State) : Prop :=
  s.rom.wf ∧ ∀ a : Address, (s.isWritten a = false ∧ s.rom.read a.toNat = 0) ∨ s.Programmed ops a

theorem State.created_wordsFrom (ops : List Instr) (s : State) : s.created.WordsFrom ops :=
  ⟨Memory.wf_nil, fun a => .inl ⟨s.isWritten_created a, rfl⟩⟩

/-- A PROGRAM of the list that succeeds accounts for the word at its own address, and leaves every other address as it was. -/
theorem State.WordsFrom.writeWord {ops : List Instr} {opcode z irq : Nat} {F : FieldConfig} {b : Address}
    (h : s.WordsFrom ops) (hmem : .program opcode z irq F ∈ ops) (hok : Succeeds (.program opcode z irq F))
    (hb : b.toNat = 4 * opcode + 2 * irq + z) : (s.writeWord b (pack F)).WordsFrom ops := by
  obtain ⟨hwf, hwords⟩ := h
  refine ⟨Memory.wf_write hwf b.isLt, fun a => ?_⟩
  unfold State.Programmed
  rw [State.isWritten_writeWord, State.read_writeWord hwf]
  by_cases ha : a = b
  · rw [if_pos ha, if_pos ha]
    exact .inr ⟨opcode, z, irq, F, hmem, hok, ha ▸ hb.symm, rfl, rfl⟩
  · rw [if_neg ha, if_neg ha]
    exact hwords a

/-- Each operation of the list keeps the account of the words. -/
theorem Transition.wordsFrom {ops : List Instr} (h : Transition s i t) (hmem : i ∈ ops) (hs : s.WordsFrom ops) :
    t.WordsFrom ops := by
  cases h with
  | created _ => exact s.created_wordsFrom ops
  | wrote _ hok => exact hs.writeWord hmem hok hok.address_toNat
  | _ => exact hs

/-- Settles O14: the account of the words holds of the image CREATE makes and is kept by every operation of the list; unpacking
the word of a validated configuration gives the configuration. -/
theorem everyWordHoldsValidatedFields : Obligations.EveryWordHoldsValidatedFields := by
  intro ops s t hs hrun a
  obtain ⟨u, hu, hops⟩ := runOps_cons_next hrun
  obtain ⟨-, rfl⟩ := State.create_next hu
  have hwords : t.WordsFrom ops :=
    runOps_keeps (fun _ hi _ _ hu hexec => (exec_transition hexec).wordsFrom hi hu) (s.created_wordsFrom ops) hops
  refine ⟨BitVec.isLt _, fun f => unpack_get _ f ▸ fieldOf_lt _ f, (hwords.2 a).imp_right ?_⟩
  rintro ⟨opcode, z, irq, F, hmem, hok, ha, hmark, hread⟩
  obtain ⟨ho, hi, hz, hF⟩ := succeeds_program.mp hok
  exact ⟨opcode, z, irq, F, hmem, ho, hi, hz, ha, hmark, FieldConfig.fits_iff.mp hF, hread ▸ unpack_pack hF⟩

/-! ## The sequencer -/

/-- Settles O51, by induction on the list: a PROGRAM that writes advances the step by 1, one that raises ends the build in a
phase that never becomes Sealed, and SEAL leaves the step. -/
theorem sealedStepIsTheBuildListLength : Obligations.SealedStepIsTheBuildListLength := by
  intro ps
  induction ps with
  | nil =>
    intro s t _ _ hrun _
    obtain ⟨u, hu, hend⟩ := runOps_cons_next hrun
    injection hend with hut
    obtain ⟨-, -, hstep⟩ := (exec_transition hu).image_kept nofun rfl
    exact hut ▸ hstep
  | cons p ps ih =>
    intro s t hps hs hrun hsealed
    obtain ⟨u, hu, hrest⟩ := runOps_cons_next hrun
    have hp : isProgram p = true := hps p List.mem_cons_self
    cases exec_transition hu with
    | wrote _ _ =>
      have htail := ih (s.writeWord _ _) t (fun j hj => hps j (List.mem_cons_of_mem _ hj)) hs hrest hsealed
      rw [htail, State.writeWord_stepIndex, List.length_cons]
      omega
    | programRaised e _ =>
      have haborted := (runOps_sameImage_of_ended hrest (State.ended_of_aborted (s.raise_phase e))).phase
      rw [hsealed, State.raise_phase] at haborted
      cases haborted
    | answered _ _ hi => rw [hi] at hp; cases hp
    | _ => cases hp

/-- Settles O50, by induction on the waiting PROGRAMs: each step carries out the first and leaves a state of the same kind. -/
theorem eachWaitingProgramAdvancesTheSequencer : Obligations.EachWaitingProgramAdvancesTheSequencer := by
  intro ps rest
  induction ps with
  | nil => exact fun s hs hp _ => ⟨s, rfl, rfl, hs, hp⟩
  | cons p ps ih =>
    intro s hs hp hps
    obtain ⟨opcode, z, irq, F, rfl, hlegal⟩ := hps p List.mem_cons_self
    have hstep := step_waiting_program hp hs (succeeds_program.mpr hlegal)
    obtain ⟨t, hrun, hindex, hphase, hpending⟩ :=
      ih ((s.withPending (ps ++ rest)).writeWord (BitVec.ofNat 8 (formedNumber opcode irq z)) (pack F)) hs rfl
        fun j hj => hps j (List.mem_cons_of_mem _ hj)
    refine ⟨t, (run_succ ps.length hstep).trans hrun, ?_, hphase, hpending⟩
    rw [hindex, State.writeWord_stepIndex, State.withPending_stepIndex, List.length_cons]
    omega

/-- Settles O49: reset is in phase Building with the reference build waiting, whose first 316 operations are PROGRAMs that
succeed, so O50 gives the run of the first `n` of them. -/
theorem sequencerPositionIndexesTheBuildList : Obligations.SequencerPositionIndexesTheBuildList := by
  intro n hn
  have hlength : (encoderOps Config.aluOrder).length = 316 := encoderOps_length _
  have htake : referenceBuild.take n = (encoderOps Config.aluOrder).take n :=
    List.take_append_of_le_length (hlength.symm ▸ hn)
  have hcount : (referenceBuild.take n).length = n := by
    rw [htake, List.length_take, hlength, Nat.min_eq_left hn]
  obtain ⟨t, hrun, hindex, hphase, hpending⟩ :=
    eachWaitingProgramAdvancesTheSequencer (referenceBuild.take n) (referenceBuild.drop n) State.reset rfl
      (List.take_append_drop n referenceBuild).symm fun i hi => by
        have hok : Succeeds i := encoderOps_succeeds (by decide) i (List.mem_of_mem_take (htake ▸ hi))
        obtain ⟨opcode, z, irq, F, rfl⟩ := hok.isProgram
        exact ⟨opcode, z, irq, F, rfl, succeeds_program.mp hok⟩
  rw [hcount] at hrun hindex
  exact ⟨t, hrun, hindex.trans (Nat.zero_add n), hphase, hpending⟩

/-! ## The artifact and the dump -/

theorem State.artifact_of_sealed (h : s.phase = some .sealed) :
    s.artifact = some (allAddresses.map fun a => s.rom.read a.toNat) := if_pos h

theorem State.dump_of_sealed (h : s.phase = some .sealed) :
    s.dump = some (allAddresses.map fun a => dumpRow a (s.rom.read a.toNat)) := if_pos h

/-- Settles O54: both are lists over the 256 addresses in their order, given in phase Sealed only. -/
theorem artifactAndDumpListEveryAddress : Obligations.ArtifactAndDumpListEveryAddress := by
  refine ⟨fun s hs => ⟨_, _, State.artifact_of_sealed hs, State.dump_of_sealed hs, ?_, ?_, fun a => ⟨?_, ?_⟩⟩,
    fun s hs => ⟨if_neg hs, if_neg hs⟩⟩
  · rw [List.length_map, allAddresses_length]
  · rw [List.length_map, allAddresses_length]
  · rw [List.getElem?_map, allAddresses_getElem?, Option.map_some]
  · rw [List.getElem?_map, allAddresses_getElem?, Option.map_some]
    rfl

end Sys2Proof.Machine
end

section
/-! The ROM as a memory: what the read port answers (R48, R178) and what PROGRAM does to the word it names (R46). -/

namespace Sys2Proof

/-! ## The row at an address and its inputs -/

/-- Splitting a formed address gives back any inputs, not only those of a row (R60). -/
theorem formAddress_splits (opcode : Opcode) (irq z : Bit) : Laws.InputsRecovered.Splits (opcode, irq, z) := by
  revert opcode irq z
  unfold Laws.InputsRecovered.Splits
  decide

/-- Whatever row the decoder names for an opcode, that row is selected by the opcode itself. -/
theorem decodeOpcode_inputs (opcode : Opcode) (z : Bit) : (decodeOpcode opcode z).inputs = some (opcode, 0, z) := by
  revert opcode z
  decide

/-- The row an address selects has the sub-fields of the address as its inputs. -/
theorem decodeAddress_inputs (a : Address) :
    (decodeAddress a).inputs = some (addressOpcode a, addressIrq a, addressZero a) := by
  unfold decodeAddress
  obtain hirq | hirq : addressIrq a = 0 ∨ addressIrq a = 1 := BitVec.eq_zero_or_eq_one _
  · rw [hirq, if_neg (by decide), decodeOpcode_inputs]
  · rw [hirq, if_pos rfl]
    rfl

theorem decodeAddress_formAddress_inputs (opcode : Opcode) (irq z : Bit) :
    (decodeAddress (formAddress opcode irq z)).inputs = some (opcode, irq, z) :=
  (decodeAddress_inputs _).trans (congrArg some (formAddress_splits opcode irq z))

end Sys2Proof

namespace Sys2Proof.Machine

variable {s : State}

/-! ## The read port -/

/-- When nothing waits, a step presents the read port's inputs, whichever row they select. -/
theorem step_of_idle_eq_present (h : s.pending = []) : step s = s.present s.portOpcode s.portIrq s.portZ :=
  (step_of_idle h).trans (exec_of_inputs (decodeAddress_formAddress_inputs s.portOpcode s.portIrq s.portZ))

/-- In phase Sealed, that step answers the word at the port address and its fields, and nothing else changes. -/
theorem step_of_idle_sealed (h : s.pending = []) (hs : s.phase = some .sealed) :
    step s = .next (s.withOutput (.port (s.rom.read s.portAddress.toNat) (unpack (s.rom.read s.portAddress.toNat)))) :=
  (step_of_idle_eq_present h).trans (State.present_sealed hs _ _ _)

/-- Settles O27: the answer is made from the word at the port address alone, and the two machines have the same port address and
the same word there. -/
theorem portAnswerDependsOnInputsAndImageOnly : Obligations.PortAnswerDependsOnInputsAndImageOnly := by
  intro s t hs ht hsIdle htIdle hopcode hirq hz hread
  have haddress : s.portAddress = t.portAddress := by
    unfold State.portAddress
    rw [hopcode, hirq, hz]
  have hword : s.rom.read s.portAddress.toNat = t.rom.read t.portAddress.toNat := by rw [hread, haddress]
  exact ⟨.port (s.rom.read s.portAddress.toNat) (unpack (s.rom.read s.portAddress.toNat)), step_of_idle_sealed hsIdle hs,
    hword ▸ step_of_idle_sealed htIdle ht⟩

/-! ## PROGRAM -/

/-- Settles O28: the PROGRAM succeeds, so it writes the packed word at its formed address, which replaces the word and sets the
mark there and nowhere else; unpacking the word of the defaults and a `pcsel` that fits gives them back. -/
theorem programReplacesTheWholeWord : Obligations.ProgramReplacesTheWholeWord := by
  refine ⟨fun s opcode z irq F hs hwf hopcode hirq hz hF => ?_, fun p hp => ?_⟩
  · have hok : Succeeds (.program opcode z irq F) := succeeds_program.mpr ⟨hopcode, hirq, hz, hF⟩
    refine ⟨_, exec_program_succeeds hs hok, fun b => ?_, fun b => ?_, rfl, hs, rfl, rfl, rfl, rfl, rfl⟩
    · rw [State.writeWord_rom, Memory.read_write hwf, hok.address_toNat]
    · rw [State.isWritten_writeWord, ← hok.address_toNat]
      exact if_congr BitVec.toNat_inj.symm rfl rfl
  · have hfits : ∀ p < 8, ({ pcsel := p } : FieldConfig).Fits := by decide
    exact unpack_pack (hfits p hp)

end Sys2Proof.Machine
end

section
/-! The two encodings: an address as the sum of its sub-fields and back (R59 to R61), the tiling of the control word by its
fields and its packing (R62 to R66), the rows of the opcode table as addresses and back (R77, R80, R82, R83), and the one place
where the zero bit changes a word (R79). -/

namespace Sys2Proof

/-! ## Rows and addresses -/

/-- The sub-fields of a formed address, one by one (R60). -/
theorem addressOpcode_formAddress (opcode : Opcode) (irq z : Bit) : addressOpcode (formAddress opcode irq z) = opcode :=
  congrArg Prod.fst (formAddress_splits opcode irq z)

theorem addressIrq_formAddress (opcode : Opcode) (irq z : Bit) : addressIrq (formAddress opcode irq z) = irq :=
  congrArg (·.2.1) (formAddress_splits opcode irq z)

theorem addressZero_formAddress (opcode : Opcode) (irq z : Bit) : addressZero (formAddress opcode irq z) = z :=
  congrArg (·.2.2) (formAddress_splits opcode irq z)

/-- The row at a formed address: the interrupt row with irq = 1, else the row of the opcode (R83). -/
theorem decodeAddress_formAddress (opcode : Opcode) (irq z : Bit) :
    decodeAddress (formAddress opcode irq z) = if irq = 1 then .irq opcode z else decodeOpcode opcode z := by
  rw [decodeAddress, addressOpcode_formAddress, addressIrq_formAddress, addressZero_formAddress]

/-- With irq = 0, the decoder names ILLEGAL at the unprogrammed opcodes and nowhere else (R80). -/
theorem decodeOpcode_eq_illegal (opcode : Opcode) (z : Bit) :
    decodeOpcode opcode z = .illegal opcode z ↔ opcode ∈ illegalOpcodes := by
  revert opcode z
  decide

theorem decodeOpcode_wellFormed (opcode : Opcode) (z : Bit) : (decodeOpcode opcode z).wellFormed = true := by
  revert opcode z
  decide

/-- The inputs of a well-formed row select that row, under the name the decoder gives it. -/
theorem decodeAddress_of_inputs {i : Instr} {opcode : Opcode} {irq z : Bit} (hi : i.wellFormed = true)
    (h : i.inputs = some (opcode, irq, z)) : decodeAddress (formAddress opcode irq z) = i.shadowedBy := by
  rw [decodeAddress_formAddress]
  cases i with
  | irq _ _ => cases h; rfl
  | illegal _ _ =>
    cases h
    exact (decodeOpcode_eq_illegal _ _).mpr (List.contains_iff_mem.mp hi)
  | create | program | sealImage | read | lookup | unpack => cases h
  | _ => cases h; rfl

/-- Decoding the encoded address of a well-formed row gives the row, under the name the decoder gives it (R77, R82). -/
theorem decodeAddress_of_encode {i : Instr} {a : Address} (hi : i.wellFormed = true) (h : encode i = some a) :
    decodeAddress a = i.shadowedBy := by
  obtain ⟨opcode, irq, z, hin, rfl⟩ := Machine.encode_eq_some h
  exact decodeAddress_of_inputs hi hin

/-- Only XOR and XORC are shadowed. -/
theorem Instr.shadowedBy_eq_self {i : Instr} (hxor : ∀ z, i ≠ .xor z) (hxorc : ∀ z, i ≠ .xorc z) : i.shadowedBy = i := by
  cases i with
  | xor z => exact absurd rfl (hxor z)
  | xorc z => exact absurd rfl (hxorc z)
  | _ => rfl

/-- Settles O15: a row that is not shadowed keeps its name, and XOR and XORC are well-formed rows whose shadows are XNOR and
XNORC. -/
theorem decodeOfEncodeIsTheRow : Obligations.DecodeOfEncodeIsTheRow :=
  ⟨fun _ _ hi h hxor hxorc => (decodeAddress_of_encode hi h).trans (Instr.shadowedBy_eq_self hxor hxorc),
    fun _ _ h => decodeAddress_of_encode rfl h, fun _ _ h => decodeAddress_of_encode rfl h⟩

/-- Settles O7: ten closed facts about the decoder's table. -/
theorem writtenOutAddressesDecode : Obligations.WrittenOutAddressesDecode := by
  unfold Obligations.WrittenOutAddressesDecode
  decide

/-! ## Forming and splitting an address -/

/-- Settles O8: both sides are the sum of the three sub-fields, which do not overlap. -/
theorem addressFollowsTheFormula : Obligations.AddressFollowsTheFormula := fun opcode irq z =>
  (formAddress_toNat opcode irq z).trans (formedNumber_eq_sum irq.isLt z.isLt).symm

theorem addressOpcode_toNat (a : Address) : (addressOpcode a).toNat = a.toNat / 4 := by
  rw [addressOpcode, BitVec.extractLsb'_toNat, Nat.shiftRight_eq_div_pow]
  omega

theorem addressIrq_toNat (a : Address) : (addressIrq a).toNat = a.toNat / 2 % 2 := by
  rw [addressIrq, BitVec.extractLsb'_toNat, Nat.shiftRight_eq_div_pow]

theorem addressZero_toNat (a : Address) : (addressZero a).toNat = a.toNat % 2 := by
  rw [addressZero, BitVec.extractLsb'_toNat, Nat.shiftRight_zero]

/-- Forming an address from its own sub-fields gives it back (R60). -/
theorem formAddress_split (a : Address) : formAddress (addressOpcode a) (addressIrq a) (addressZero a) = a := by
  refine BitVec.eq_of_toNat_eq ?_
  rw [formAddress_toNat, addressOpcode_toNat, addressIrq_toNat, addressZero_toNat]
  omega

/-- Settles O9. -/
theorem addressSplitsBackExactly : Obligations.AddressSplitsBackExactly :=
  ⟨fun a => ⟨addressOpcode_toNat a, addressIrq_toNat a, addressZero_toNat a⟩,
    fun opcode irq z => ⟨addressOpcode_formAddress opcode irq z, addressIrq_formAddress opcode irq z,
      addressZero_formAddress opcode irq z⟩,
    formAddress_split⟩

/-- The row an address selects is well-formed. -/
theorem decodeAddress_wellFormed (a : Address) : (decodeAddress a).wellFormed = true := by
  unfold decodeAddress
  split
  · rfl
  · exact decodeOpcode_wellFormed _ _

/-- Settles O16: the inputs of the row an address selects are the sub-fields of the address, and they form it again. -/
theorem encodeOfDecodeIsTheAddress : Obligations.EncodeOfDecodeIsTheAddress := by
  refine fun a => ⟨decodeAddress_wellFormed a, ?_⟩
  rw [encode, decodeAddress_inputs, Option.map_some, formAddress_split]

/-! ## The fields of a control word -/

/-- Settles O11: the table of R63, row by row. -/
theorem fieldLayoutMatchesTheTable : Obligations.FieldLayoutMatchesTheTable := ⟨by decide, by decide⟩

/-- Every bit of the word lies in a field (R62). -/
theorem Field.exists_bit {i : Nat} (h : i < 17) : ∃ f : Field, f.offset ≤ i ∧ i < f.offset + f.width := by
  have hall : ∀ i < 17, ∃ f ∈ Field.all, f.offset ≤ i ∧ i < f.offset + f.width := by decide
  obtain ⟨f, -, hf⟩ := hall i h
  exact ⟨f, hf⟩

/-- Of two different fields, one ends before the other begins (R62). -/
theorem Field.disjoint {f g : Field} (h : g ≠ f) : f.offset + f.width ≤ g.offset ∨ g.offset + g.width ≤ f.offset := by
  have hall : ∀ f ∈ Field.all, ∀ g ∈ Field.all, g ≠ f →
      f.offset + f.width ≤ g.offset ∨ g.offset + g.width ≤ f.offset := by decide
  exact hall f f.mem_all g g.mem_all h

theorem Field.end_le (f : Field) : f.offset + f.width ≤ 17 := by cases f <;> decide

/-- Settles O12: some field holds the bit, and two different fields share none. -/
theorem fieldsTileTheWord : Obligations.FieldsTileTheWord := by
  refine ⟨fun i hi => ?_, Field.end_le⟩
  obtain ⟨f, hf⟩ := Field.exists_bit hi
  refine ⟨f, hf, fun g hg => ?_⟩
  by_contra hne
  have hdisjoint := Field.disjoint hne
  omega

/-- Shifting and masking reads a field (R66). -/
theorem fieldOf_eq_shift_and (w : ControlWord) (f : Field) : fieldOf w f = (w.toNat >>> f.offset) &&& (2 ^ f.width - 1) := by
  rw [fieldOf, BitVec.extractLsb'_toNat, Nat.and_two_pow_sub_one_eq_mod]

/-- Unpacking masks, so what it gives fits (R66). -/
theorem unpack_fits (w : ControlWord) : (unpack w).Fits :=
  FieldConfig.fits_iff.mpr fun f => unpack_get w f ▸ fieldOf_lt w f

/-- Packing the ten fields of a word gives the word back: the fields tile it (R62, R66, R97). -/
theorem pack_unpack (w : ControlWord) : pack (unpack w) = w := by
  refine BitVec.eq_of_toNat_eq ?_
  rw [pack_toNat (unpack_fits w)]
  simp only [unpack, fieldOf_eq_div_mod, Field.offset, Field.width]
  omega

/-- Settles O13. -/
theorem unpackIsTheExactInverseOfPack : Obligations.UnpackIsTheExactInverseOfPack :=
  ⟨fun w f => (unpack_get w f).trans (fieldOf_eq_shift_and w f), fun _ hF => unpack_pack hF, pack_unpack⟩

/-! ## Where the zero bit matters -/

/-- A list of operations programs the same fields at both zero values of an opcode. -/
def ZeroSymmetric (ops : List Instr) : Prop :=
  ∀ (opcode irq : Nat) (F : FieldConfig), .program opcode 0 irq F ∈ ops ↔ .program opcode 1 irq F ∈ ops

theorem ZeroSymmetric.pair (opcode irq : Nat) (F : FieldConfig) :
    ZeroSymmetric [.program opcode 0 irq F, .program opcode 1 irq F] := by
  intro opcode' irq' F'
  simp

theorem ZeroSymmetric.flatMap {α : Type} {l : List α} {ops : α → List Instr} (h : ∀ x ∈ l, ZeroSymmetric (ops x)) :
    ZeroSymmetric (l.flatMap ops) := by
  intro opcode irq F
  simp only [List.mem_flatMap]
  exact exists_congr fun x => and_congr_right fun hx => h x hx opcode irq F

/-- DefaultFill and InterruptOverride write one word at both zero values (R101, R103). -/
theorem ZeroSymmetric.fillAll (irq : Nat) (F : FieldConfig) : ZeroSymmetric (fillAll irq F) :=
  .flatMap fun opcode _ => .pair opcode irq F

/-- ALUOp writes each of its two forms at both zero values (R110). -/
theorem ZeroSymmetric.aluOp (base fn : Nat) : ZeroSymmetric (aluOp base fn) := by
  intro opcode irq F
  simp [Sys2Proof.aluOp]

/-- What Branch programs at a zero value (R138). -/
theorem mem_branchOp {op o z irq : Nat} {F : FieldConfig} (h : .program o z irq F ∈ branchOp op) : F = branchConfig z := by
  simp only [branchOp, List.mem_cons, Instr.program.injEq, List.not_mem_nil, or_false] at h
  obtain ⟨-, rfl, -, rfl⟩ | ⟨-, rfl, -, rfl⟩ := h <;> rfl

end Sys2Proof

namespace Sys2Proof.Machine

variable {s : State}

/-- The closed form at a formed address (R109). -/
theorem finalWord_formAddress (opcode : Opcode) (irq z : Bit) :
    finalWord (formAddress opcode irq z) = imageWord (aluWordAt opcode) opcode irq z := by
  rw [finalWord, addressOpcode_formAddress, addressIrq_formAddress, addressZero_formAddress]

/-- Off the branch addresses the closed form does not look at the zero bit (R79). -/
theorem imageWord_zero_irrelevant {opcode : Opcode} {irq : Bit} (h : ¬ (irq = 0 ∧ (opcode = 0x1C ∨ opcode = 0x1D)))
    (alu : Option ControlWord) (z z' : Bit) : imageWord alu opcode irq z = imageWord alu opcode irq z' := by
  unfold imageWord
  obtain hirq | hirq : irq = 0 ∨ irq = 1 := BitVec.eq_zero_or_eq_one irq
  · have hbranch : ¬ (opcode = 0x1C ∨ opcode = 0x1D) := fun hop => h ⟨hirq, hop⟩
    rw [if_neg hbranch, if_neg hbranch]
  · rw [if_pos hirq, if_pos hirq]

/-- In phase Sealed a READ inside the space answers its word (R93). -/
theorem State.read_sealed (h : s.phase = some .sealed) {a : Nat} (ha : a < 256) :
    s.read a = .next (s.withOutput (.word (s.rom.read a))) := by
  unfold State.read
  rw [State.readWord_ok.mpr ⟨h, ha, rfl⟩]

theorem State.ReferenceImage.read_formAddress (h : s.ReferenceImage) (opcode : Opcode) (irq z : Bit) :
    exec (.read (formAddress opcode irq z).toNat) s =
      .next (s.withOutput (.word (imageWord (aluWordAt opcode) opcode irq z))) := by
  obtain ⟨hsealed, hread⟩ := h
  rw [← finalWord_formAddress, ← hread]
  exact State.read_sealed hsealed (formAddress opcode irq z).isLt

/-- Settles O46: Branch takes its pcsel from the zero bit, every other rule is symmetric in it, and so is the closed form off the
branch addresses. -/
theorem zeroBitChangesOnlyBranchWords : Obligations.ZeroBitChangesOnlyBranchWords := by
  refine ⟨fun op z irq o F h => mem_branchOp h ▸ rfl, by decide, by decide, fun ops hops => ?_, fun s opcode irq hs hnot => ?_⟩
  · show ZeroSymmetric ops
    obtain rfl | rfl | ⟨base, fn, rfl⟩ | ⟨op, rfl⟩ | ⟨op, rfl⟩ := hops
    · exact .fillAll 0 illegalConfig
    · exact .fillAll 1 interruptConfig
    · exact .aluOp base fn
    · exact .pair op 0 loadConfig
    · exact .pair op 0 jumpConfig
  · exact ⟨_, hs.read_formAddress opcode irq 0,
      imageWord_zero_irrelevant hnot (aluWordAt opcode) 1 0 ▸ hs.read_formAddress opcode irq 1⟩

/-! ## The illegal rows -/

/-- The closed form holds the interrupt word at every irq = 1 address, whatever the rest (R109, R156). -/
theorem imageWord_irq (alu : Option ControlWord) (opcode : Opcode) (z : Bit) : imageWord alu opcode 1 z = 0x10007 := if_pos rfl

/-- With irq = 0, the reference image holds the illegal-instruction word at the unprogrammed opcodes and nowhere else (R102). -/
theorem imageWord_eq_illegal (opcode : Opcode) (z : Bit) :
    imageWord (aluWordAt opcode) opcode 0 z = 0x0C007 ↔ opcode ∈ illegalOpcodes := by
  revert opcode z
  decide

/-- Settles O17: with irq = 1 the row is IRQ and the word is the interrupt word; with irq = 0 both follow the opcode. -/
theorem illegalRowsAreExactlyTheUnprogrammed : Obligations.IllegalRowsAreExactlyTheUnprogrammed := by
  intro a
  unfold decodeAddress finalWord
  obtain hirq | hirq : addressIrq a = 0 ∨ addressIrq a = 1 := BitVec.eq_zero_or_eq_one _
  · rw [hirq, if_neg (by decide), decodeOpcode_eq_illegal, imageWord_eq_illegal]
    simp
  · rw [hirq, if_pos rfl, imageWord_irq]
    simp

/-! ## PROGRAM outside the legal ranges -/

theorem State.program_of_building (h : s.phase = some .building) (opcode z irq : Nat) (F : FieldConfig) :
    s.program opcode z irq F = .next (s.programBuilding opcode z irq F) := by
  unfold State.program
  rw [h]

/-- PROGRAM checks the sub-fields before anything else (R89, R148). -/
theorem State.programBuilding_of_illegal {opcode z irq : Nat} (h : subFieldsLegal opcode irq z = false) (F : FieldConfig) :
    s.programBuilding opcode z irq F = s.raise (.addressOutOfRange opcode irq z (formedNumber opcode irq z)) := by
  unfold State.programBuilding
  rw [h]
  rfl

/-- Settles O10: the number 2 is formed by (0, 0, 2) as by (0, 1, 0), and PROGRAM refuses the first for its zero. -/
theorem formedNumberIsTheSumAndAliases : Obligations.FormedNumberIsTheSumAndAliases := by
  refine ⟨fun opcode irq z _ hirq hz => formedNumber_eq_sum hirq hz, by decide, fun s F hs => ?_⟩
  calc exec (.program 0 2 0 F) s = .next (s.programBuilding 0 2 0 F) := State.program_of_building hs 0 2 0 F
    _ = .next (s.raise (.addressOutOfRange 0 0 2 2)) := by rw [State.programBuilding_of_illegal (by decide)]; rfl

end Sys2Proof.Machine
end

section
/-! The block's own operations (41_builder.md): a step (R95, R100), the answers and the faults of READ, LOOKUP and the address
rows (R93 to R95, R172), UNPACK (R96), PROGRAM outside phase Building and over an earlier word (R91, R98), and the two ends of
SEAL (R92, R152). -/

namespace Sys2Proof.Machine

variable {s : State}

/-! ## One step -/

/-- Settles O6: a step looks at the waiting operations first. -/
theorem stepRunsTheDecodedRow : Obligations.StepRunsTheDecodedRow :=
  ⟨fun _ _ hidle hrow => hrow ▸ step_of_idle hidle, fun _ _ _ hwaiting => step_of_pending hwaiting⟩

/-! ## READ, LOOKUP and UNPACK -/

/-- Settles O24: in phase Sealed both reads succeed inside the space, and every formed address, the sum of its sub-fields, lies
inside it. -/
theorem readAndLookupAnswerTheWord : Obligations.ReadAndLookupAnswerTheWord := by
  refine fun s hs => ⟨fun a ha => State.read_sealed hs ha, fun opcode irq z => ?_⟩
  rw [← formAddress_toNat]
  exact State.present_sealed hs opcode irq z

/-- READ stops with the fault of its checks. -/
theorem State.read_of_error {a : Nat} {f : Fault} (h : s.readWord a = .error f) : s.read a = .fault f := by
  unfold State.read
  rw [h]

/-- The read port stops with the fault that READ's checks give the formed address. -/
theorem State.present_of_error {opcode : Opcode} {irq z : Bit} {f : Fault}
    (h : s.readWord (formAddress opcode irq z).toNat = .error f) : s.present opcode irq z = .fault f := by
  unfold State.present
  rw [h]

/-- Before SEAL no word can be read (R94, R172). -/
theorem State.readWord_of_building (h : s.phase = some .building) (a : Nat) :
    s.readWord a = .error (.readBeforeBuildComplete a) := by
  unfold State.readWord
  rw [h]

/-- In phase Sealed no word can be read outside the space (R93). -/
theorem State.readWord_out_of_range (h : s.phase = some .sealed) {a : Nat} (ha : 256 ≤ a) :
    s.readWord a = .error (.readOutOfRange a) := by
  unfold State.readWord
  rw [h]
  exact if_neg (Nat.not_lt.mpr ha)

theorem State.present_of_building (h : s.phase = some .building) (opcode : Opcode) (irq z : Bit) :
    s.present opcode irq z = .fault (.readBeforeBuildComplete (formAddress opcode irq z).toNat) :=
  State.present_of_error (State.readWord_of_building h _)

/-- Settles O25: the checks of READ fail, and LOOKUP and the address rows are presentations at the read port, which makes the same
checks of the formed address. -/
theorem readsBeforeSealOrOutOfRangeFault : Obligations.ReadsBeforeSealOrOutOfRangeFault := by
  refine ⟨fun s a hs => State.read_of_error (State.readWord_of_building hs a), fun s opcode irq z hs => ?_,
    fun s i a hs ha => ?_, fun s a hs ha => State.read_of_error (State.readWord_out_of_range hs ha)⟩
  · rw [← formAddress_toNat]
    exact State.present_of_building hs opcode irq z
  · obtain ⟨opcode, irq, z, hi, rfl⟩ := encode_eq_some ha
    exact (exec_of_inputs hi).trans (State.present_of_building hs opcode irq z)

/-- Settles O26: UNPACK looks at no piece of the state, and each of its fields is a shift and a remainder. -/
theorem unpackAnswersInEveryPhase : Obligations.UnpackAnswersInEveryPhase := by
  refine fun s w => ⟨unpack w, rfl, fun f => ?_⟩
  rw [unpack_get, fieldOf_eq_div_mod, Nat.shiftRight_eq_div_pow]

/-! ## PROGRAM -/

theorem State.program_of_sealed (h : s.phase = some .sealed) (opcode z irq : Nat) (F : FieldConfig) :
    s.program opcode z irq F = .fault (.writeAfterSeal opcode z irq) := by
  unfold State.program
  rw [h]

theorem State.program_of_aborted {e : BuildError} (h : s.phase = some (.aborted e)) (opcode z irq : Nat) (F : FieldConfig) :
    s.program opcode z irq F = .fault (.buildAborted e) := by
  unfold State.program
  rw [h]

/-- Settles O31: PROGRAM reads the phase before its operands. -/
theorem programOutsideBuildingFaults : Obligations.ProgramOutsideBuildingFaults := fun _ opcode z irq F =>
  ⟨fun hs => State.program_of_sealed hs opcode z irq F, fun _ hs => State.program_of_aborted hs opcode z irq F⟩

/-- Writing an address twice leaves the second word, one mark and a step more than writing it once. -/
theorem State.writeWord_writeWord (h : s.rom.wf) (a : Address) (v w : ControlWord) :
    (s.writeWord a v).writeWord a w = { s.writeWord a w with stepIndex := s.stepIndex + 2 } := by
  have hrom : (s.rom.write a.toNat v).write a.toNat w = s.rom.write a.toNat w := Memory.write_write h a.isLt
  have hmarks : (s.written.set a.toNat true a.isLt).set a.toNat true a.isLt = s.written.set a.toNat true a.isLt :=
    Vector.set_set true a.isLt
  unfold State.writeWord
  rw [hrom, hmarks]

/-- Settles O32: both PROGRAMs succeed and write the same address, so the second word replaces the first. -/
theorem reprogrammingKeepsTheLastWord : Obligations.ReprogrammingKeepsTheLastWord := by
  intro s opcode z irq F G hs hwf hopcode hirq hz hF hG
  have hfirst : Succeeds (.program opcode z irq F) := succeeds_program.mpr ⟨hopcode, hirq, hz, hF⟩
  have hsecond : Succeeds (.program opcode z irq G) := succeeds_program.mpr ⟨hopcode, hirq, hz, hG⟩
  refine ⟨_, _, ?_, exec_program_succeeds hs hsecond, State.writeWord_writeWord hwf _ (pack F) (pack G)⟩
  rw [runOps_cons (exec_program_succeeds hs hfirst),
    runOps_cons (exec_program_succeeds ((State.writeWord_phase s _ _).trans hs) hsecond)]
  rfl

/-! ## SEAL -/

/-- An unwritten address below which every address is written is the one SEAL reports: no other is unwritten with all lower ones
written. -/
theorem State.leastUnwritten_of_least {a : Address} (ha : s.isWritten a = false)
    (hlow : ∀ b : Address, b.toNat < a.toNat → s.isWritten b = true) : s.leastUnwritten = some a := by
  cases hl : s.leastUnwritten with
  | none => simp [State.leastUnwritten_eq_none.mp hl a] at ha
  | some b =>
    obtain ⟨hb, hlowb⟩ := State.leastUnwritten_eq_some hl
    obtain hlt | heq | hgt := Nat.lt_trichotomy b.toNat a.toNat
    · simp [hlow b hlt] at hb
    · rw [BitVec.eq_of_toNat_eq heq]
    · simp [hlowb a hgt] at ha

theorem State.sealImage_of_building (h : s.phase = some .building) : s.sealImage = .next s.sealBuilding := by
  unfold State.sealImage
  rw [h]

theorem State.sealBuilding_of_complete (h : s.leastUnwritten = none) : s.sealBuilding = s.sealedNow := by
  unfold State.sealBuilding
  rw [h]

theorem State.sealBuilding_of_incomplete {a : Address} (h : s.leastUnwritten = some a) :
    s.sealBuilding = s.raise (.incompleteImage a) := by
  unfold State.sealBuilding
  rw [h]

/-- Settles O33: with every address written, SEAL finds none to report. -/
theorem sealFinishesACompleteImage : Obligations.SealFinishesACompleteImage := by
  intro s hs hall
  calc exec .sealImage s = .next s.sealBuilding := State.sealImage_of_building hs
    _ = .next s.sealedNow := by rw [State.sealBuilding_of_complete (State.leastUnwritten_eq_none.mpr hall)]

/-- Settles O34: SEAL reports the least unwritten address, which is the given one. -/
theorem sealRaisesIncompleteImage : Obligations.SealRaisesIncompleteImage := by
  intro s a hs ha hlow
  calc exec .sealImage s = .next s.sealBuilding := State.sealImage_of_building hs
    _ = .next (s.raise (.incompleteImage a)) := by
      rw [State.sealBuilding_of_incomplete (State.leastUnwritten_of_least ha hlow)]

end Sys2Proof.Machine
end

section
/-! The encoder's sequence (42_encoder_sequence.md): the word that each rule, and then the whole sequence for any `aluOrder`,
leaves at an address (R101 to R111), the runs that build it, by operations and by steps (R100, R171), the trap rows that read it
(R102, R104), and the opcodes where the order of the instantiations matters (R107). -/

namespace Sys2Proof

/-! ## The word an operation writes at an address -/

/-- The word an operation leaves at an address when it succeeds: a PROGRAM of that address its packed fields, every other operation none. -/
def Instr.wordAt (i : Instr) (a : Nat) : Option ControlWord :=
  match i with
  | .program opcode z irqBit F => if a = formedNumber opcode irqBit z then some (pack F) else none
  | _ => none

/-- The word one instantiation writes at an opcode: within it the constant form comes last (R110). -/
def AluEntry.wordAt (e : AluEntry) (opcode : Opcode) : Option ControlWord :=
  if opcode.toNat = e.base ||| 0b10000 then some (pack (aluConfig e.fn 1))
  else if opcode.toNat = e.base then some (pack (aluConfig e.fn 0))
  else none

theorem AluEntry.wordAt_eq_none {e : AluEntry} {opcode : Opcode} (h : opcode.toNat ∉ [e.base ||| 0b10000, e.base]) :
    e.wordAt opcode = none := by
  simp only [List.mem_cons, List.not_mem_nil, or_false, not_or] at h
  rw [AluEntry.wordAt, if_neg h.1, if_neg h.2]

/-- A PROGRAM in range names an address exactly by the address's sub-fields (R60). -/
theorem toNat_eq_formedNumber {irq z : Nat} (hirq : irq < 2) (hz : z < 2) (opcode : Nat) (a : Address) :
    a.toNat = formedNumber opcode irq z ↔
      (addressOpcode a).toNat = opcode ∧ (addressIrq a).toNat = irq ∧ (addressZero a).toNat = z := by
  rw [formedNumber_eq_sum hirq hz, addressOpcode_toNat, addressIrq_toNat, addressZero_toNat]
  omega

theorem Instr.wordAt_program {irq z : Nat} (hirq : irq < 2) (hz : z < 2) (opcode : Nat) (F : FieldConfig) (a : Address) :
    (Instr.program opcode z irq F).wordAt a.toNat =
      if (addressOpcode a).toNat = opcode ∧ (addressIrq a).toNat = irq ∧ (addressZero a).toNat = z then some (pack F)
      else none :=
  if_congr (toNat_eq_formedNumber hirq hz opcode a) rfl rfl

theorem mem_fillAll {irq : Nat} {F : FieldConfig} {i : Instr} :
    i ∈ fillAll irq F ↔ ∃ opcode < 64, i = .program opcode 0 irq F ∨ i = .program opcode 1 irq F := by
  simp [fillAll, Config.opcodeCount]

/-- Every instruction-class rule programs with irq = 0 only (R105). -/
theorem mem_classOps_irq {order : List AluEntry} {i : Instr} (h : i ∈ classOps order) :
    ∃ opcode z F, z < 2 ∧ i = .program opcode z 0 F := by
  simp only [classOps, aluOp, branchOp, loadOp, jumpOp, List.mem_append, List.mem_flatMap, List.mem_cons, List.not_mem_nil,
    or_false] at h
  obtain (((⟨e, -, rfl | rfl | rfl | rfl⟩ | rfl | rfl) | rfl | rfl) | rfl | rfl) | rfl | rfl := h <;>
    exact ⟨_, _, _, by decide, rfl⟩

end Sys2Proof

namespace Sys2Proof.Machine

variable {s t : State}

/-! ## The word a list of operations leaves at an address -/

theorem lastWord_concat (ps : List Instr) (i : Instr) (a : Nat) :
    lastWord (ps ++ [i]) a = (i.wordAt a).or (lastWord ps a) := by
  cases i with
  | program opcode z irq F =>
    rw [lastWord_snoc, Instr.wordAt]
    split <;> rfl
  | _ => simp [lastWord, Instr.wordAt]

/-- The last operation that writes the address is the first from the end. -/
theorem lastWord_eq_findSome? (ps : List Instr) (a : Nat) : lastWord ps a = ps.reverse.findSome? (·.wordAt a) := by
  induction ps using List.reverseRecOn with
  | nil => rfl
  | append_singleton ps i ih =>
    rw [lastWord_concat, ih, List.reverse_concat, List.findSome?_cons]
    cases i.wordAt a <;> rfl

theorem lastWord_append (ps qs : List Instr) (a : Nat) : lastWord (ps ++ qs) a = (lastWord qs a).or (lastWord ps a) := by
  simp only [lastWord_eq_findSome?, List.reverse_append, List.findSome?_append]

theorem lastWord_eq_none {ps : List Instr} {a : Nat} : lastWord ps a = none ↔ ∀ i ∈ ps, i.wordAt a = none := by
  simp only [lastWord_eq_findSome?, List.findSome?_eq_none_iff, List.mem_reverse]

/-- Where an operation of the list writes, and all that write there write one word, that word is left. -/
theorem lastWord_eq_some {ps : List Instr} {a : Nat} {w : ControlWord} (hex : ∃ i ∈ ps, i.wordAt a = some w)
    (hall : ∀ i ∈ ps, ∀ v, i.wordAt a = some v → v = w) : lastWord ps a = some w := by
  cases hlast : lastWord ps a with
  | none =>
    obtain ⟨i, hi, hw⟩ := hex
    rw [lastWord_eq_none.mp hlast i hi] at hw
    cases hw
  | some v =>
    rw [lastWord_eq_findSome?] at hlast
    obtain ⟨i, hi, hv⟩ := List.exists_of_findSome?_eq_some hlast
    rw [hall i (List.mem_reverse.mp hi) v hv]

/-! ## The words of the rules -/

/-- A fill leaves its word on its half of the image and none on the other (R101, R103). -/
theorem lastWord_fillAll (irq : Bit) (F : FieldConfig) (a : Address) :
    lastWord (fillAll irq.toNat F) a.toNat = if addressIrq a = irq then some (pack F) else none := by
  have hword (opcode z : Nat) (hz : z < 2) := Instr.wordAt_program irq.isLt hz opcode F a
  split
  · next hirq =>
    refine lastWord_eq_some ⟨.program (addressOpcode a).toNat (addressZero a).toNat irq.toNat F, ?_, ?_⟩ ?_
    · refine mem_fillAll.mpr ⟨_, (addressOpcode a).isLt, ?_⟩
      obtain hz | hz : addressZero a = 0 ∨ addressZero a = 1 := BitVec.eq_zero_or_eq_one _
      · exact .inl (by rw [hz]; rfl)
      · exact .inr (by rw [hz]; rfl)
    · rw [hword _ _ (addressZero a).isLt, if_pos ⟨rfl, congrArg _ hirq, rfl⟩]
    · intro i hi v hv
      obtain ⟨opcode, -, rfl | rfl⟩ := mem_fillAll.mp hi <;>
        rw [hword _ _ (by decide), Option.ite_none_right_eq_some] at hv <;>
        exact (Option.some.inj hv.2).symm
  · next hirq =>
    refine lastWord_eq_none.mpr fun i hi => ?_
    have hne : ¬ (addressIrq a).toNat = irq.toNat := fun h => hirq (BitVec.eq_of_toNat_eq h)
    obtain ⟨opcode, -, rfl | rfl⟩ := mem_fillAll.mp hi <;>
      rw [hword _ _ (by decide), if_neg fun h => hne h.2.1]

/-- The class rules leave no word at an irq = 1 address (R105). -/
theorem lastWord_classOps_irq (order : List AluEntry) {a : Address} (h : addressIrq a = 1) :
    lastWord (classOps order) a.toNat = none := by
  refine lastWord_eq_none.mpr fun i hi => ?_
  obtain ⟨opcode, z, F, hz, rfl⟩ := mem_classOps_irq hi
  rw [Instr.wordAt_program (by decide) hz, h]
  exact if_neg fun hsub => absurd hsub.2.1 (by decide)

/-- The two PROGRAMs of an opcode leave their words by the zero bit: the shape of Branch, Load and Jump. -/
theorem lastWord_zeroPair (op : Opcode) (F G : FieldConfig) {a : Address} (h : addressIrq a = 0) :
    lastWord [.program op.toNat 0 0 F, .program op.toNat 1 0 G] a.toNat =
      if addressOpcode a = op then some (if addressZero a = 0 then pack F else pack G) else none := by
  rw [lastWord_eq_findSome?]
  obtain hz | hz : addressZero a = 0 ∨ addressZero a = 1 := BitVec.eq_zero_or_eq_one _ <;>
    by_cases ho : addressOpcode a = op <;>
    simp [Instr.wordAt_program, BitVec.toNat_inj, h, hz, ho]

theorem lastWord_branchOp (op : Opcode) {a : Address} (h : addressIrq a = 0) :
    lastWord (branchOp op.toNat) a.toNat =
      if addressOpcode a = op then some (if addressZero a = 0 then 0x04005 else 0x00005) else none :=
  lastWord_zeroPair op (branchConfig 0) (branchConfig 1) h

theorem lastWord_loadOp (op : Opcode) {a : Address} (h : addressIrq a = 0) :
    lastWord (loadOp op.toNat) a.toNat = if addressOpcode a = op then some 0x015A5 else none :=
  (lastWord_zeroPair op loadConfig loadConfig h).trans (by rw [ite_self]; rfl)

theorem lastWord_jumpOp (op : Opcode) {a : Address} (h : addressIrq a = 0) :
    lastWord (jumpOp op.toNat) a.toNat = if addressOpcode a = op then some 0x08005 else none :=
  (lastWord_zeroPair op jumpConfig jumpConfig h).trans (by rw [ite_self]; rfl)

/-- ALUOp leaves its word on the irq = 0 half (R110). -/
theorem lastWord_aluOp (e : AluEntry) {a : Address} (h : addressIrq a = 0) :
    lastWord (aluOp e.base e.fn) a.toNat = e.wordAt (addressOpcode a) := by
  have hzero : addressZero a = 0 ∨ addressZero a = 1 := BitVec.eq_zero_or_eq_one _
  rw [lastWord_eq_findSome?, AluEntry.wordAt]
  split
  · next hconst => obtain hz | hz := hzero <;> simp [aluOp, Instr.wordAt_program, h, hz, hconst]
  · next hconst =>
    split
    · next hbase =>
      rw [hbase] at hconst
      obtain hz | hz := hzero <;> simp [aluOp, Instr.wordAt_program, h, hz, hbase, hconst]
    · next hbase => obtain hz | hz := hzero <;> simp [aluOp, Instr.wordAt_program, h, hz, hbase, hconst]

theorem aluWordFor_eq_foldl (order : List AluEntry) (opcode : Opcode) :
    aluWordFor order opcode = order.foldl (fun found e => (e.wordAt opcode).or found) none := by
  unfold aluWordFor
  congr 1
  funext found e
  unfold AluEntry.wordAt
  split
  · rfl
  · split <;> rfl

theorem aluWordFor_concat (order : List AluEntry) (e : AluEntry) (opcode : Opcode) :
    aluWordFor (order ++ [e]) opcode = (e.wordAt opcode).or (aluWordFor order opcode) := by
  simp only [aluWordFor_eq_foldl, List.foldl_concat]

/-- The instantiations leave the words of the closed form: the last one that programs the opcode wins (R107, R111). -/
theorem lastWord_aluOps (order : List AluEntry) {a : Address} (h : addressIrq a = 0) :
    lastWord (order.flatMap fun e => aluOp e.base e.fn) a.toNat = aluWordFor order (addressOpcode a) := by
  induction order using List.reverseRecOn with
  | nil => rfl
  | append_singleton order e ih =>
    rw [List.flatMap_append, List.flatMap_singleton, lastWord_append, lastWord_aluOp e h, ih, aluWordFor_concat]

/-- The class rules leave the class words of the closed form on the irq = 0 half (R109). -/
theorem lastWord_classOps (order : List AluEntry) {a : Address} (h : addressIrq a = 0) :
    (lastWord (classOps order) a.toNat).getD 0x0C007 = finalWordFor order a := by
  have hbeq : lastWord (branchOp 0b011100) a.toNat = _ := lastWord_branchOp 0x1C h
  have hbne : lastWord (branchOp 0b011101) a.toNat = _ := lastWord_branchOp 0x1D h
  have hldr : lastWord (loadOp 0b011111) a.toNat = _ := lastWord_loadOp 0x1F h
  have hjmp : lastWord (jumpOp 0b011011) a.toNat = _ := lastWord_jumpOp 0x1B h
  rw [classOps, lastWord_append, lastWord_append, lastWord_append, lastWord_append, lastWord_aluOps order h, hbeq, hbne, hldr,
    hjmp, finalWordFor, imageWord, h, if_neg (show ¬ (0 : Bit) = 1 by decide)]
  generalize addressOpcode a = op
  obtain rfl | rfl | rfl | rfl | ⟨hjump, hbranch, hload⟩ :
      op = 0x1B ∨ op = 0x1C ∨ op = 0x1D ∨ op = 0x1F ∨ op ≠ 0x1B ∧ ¬ (op = 0x1C ∨ op = 0x1D) ∧ op ≠ 0x1F := by tauto
  · simp
  · simp
  · simp
  · simp
  · obtain ⟨hnotBeq, hnotBne⟩ := not_or.mp hbranch
    simp only [if_neg hjump, if_neg hbranch, if_neg hnotBeq, if_neg hnotBne, if_neg hload, Option.none_or]

/-- The encoder's sequence leaves the word of the closed form at every address (R109). -/
theorem lastWord_encoderOps (order : List AluEntry) (a : Address) :
    lastWord (encoderOps order) a.toNat = some (finalWordFor order a) := by
  have hdefault : lastWord defaultFill a.toNat = if addressIrq a = 0 then some (pack illegalConfig) else none :=
    lastWord_fillAll 0 illegalConfig a
  have hinterrupt : lastWord interruptOverride a.toNat = if addressIrq a = 1 then some (pack interruptConfig) else none :=
    lastWord_fillAll 1 interruptConfig a
  rw [encoderOps, lastWord_append, lastWord_append, hdefault, hinterrupt]
  obtain hirq | hirq : addressIrq a = 0 ∨ addressIrq a = 1 := BitVec.eq_zero_or_eq_one _
  · rw [← lastWord_classOps order hirq, hirq, if_pos rfl, if_neg (by decide), Option.none_or]
    cases lastWord (classOps order) a.toNat <;> rfl
  · rw [lastWord_classOps_irq order hirq, finalWordFor, hirq, imageWord_irq]
    rfl

/-! ## Running the rules -/

/-- A fill overwrites its half of the image, whatever stood there, and leaves the other (R101, R103, R173). -/
theorem runOps_fillAll (irq : Bit) {F : FieldConfig} (hF : F.Fits) (hs : s.phase = some .building) (hwf : s.rom.wf) :
    ∃ t, runOps (fillAll irq.toNat F) s = .next t ∧ t.phase = some .building ∧ t.stepIndex = s.stepIndex + 128 ∧
      ∀ a : Address,
        t.rom.read a.toNat = (if addressIrq a = irq then pack F else s.rom.read a.toNat) ∧
        t.isWritten a = (if addressIrq a = irq then true else s.isWritten a) := by
  obtain ⟨t, hrun, hphase, -, hstep, hread, hmark, -⟩ := runOps_programs _ (fillAll_succeeds irq.isLt hF) hs hwf
  refine ⟨t, hrun, hphase, by rw [hstep, fillAll_length], fun a => ?_⟩
  rw [hread, hmark, lastWord_fillAll]
  split <;> exact ⟨rfl, rfl⟩

/-- Settles O43: both fills are of this kind, with the illegal-instruction word and the interrupt word. -/
theorem fillsOverwriteTheirHalf : Obligations.FillsOverwriteTheirHalf := fun _ hs hwf =>
  ⟨runOps_fillAll 0 (F := illegalConfig) (by decide) hs hwf, runOps_fillAll 1 (F := interruptConfig) (by decide) hs hwf⟩

/-- What the encoder's sequence and SEAL make of `s`: the sealed image of the closed form, with the surroundings kept. -/
structure Built (order : List AluEntry) (s t : State) : Prop where
  rom_wf : t.rom.wf
  read : ∀ a : Address, t.rom.read a.toNat = finalWordFor order a
  isWritten : ∀ a : Address, t.isWritten a = true
  phase : t.phase = some .sealed
  stepIndex : t.stepIndex = s.stepIndex + 264 + 4 * order.length
  pending : t.pending = s.pending
  portOpcode : t.portOpcode = s.portOpcode
  portIrq : t.portIrq = s.portIrq
  portZ : t.portZ = s.portZ
  output : t.output = s.output

/-- From any unfinished build, the encoder's PROGRAMs all succeed and write every address, so SEAL finishes the image. -/
theorem runOps_encoderOps_sealImage {order : List AluEntry} (h : ∀ e ∈ order, e.base < 64 ∧ e.fn < 32)
    (hs : s.phase = some .building) (hwf : s.rom.wf) :
    ∃ t, runOps (encoderOps order ++ [.sealImage]) s = .next t ∧ Built order s t := by
  obtain ⟨t, hrun, hphase, hrom, hstep, hread, hmark, hpending, hopcode, hirq, hz, houtput⟩ :=
    runOps_programs _ (encoderOps_succeeds h) hs hwf
  have hcomplete (a : Address) : t.isWritten a = true := by rw [hmark, lastWord_encoderOps]; rfl
  have hseal : exec .sealImage t = .next t.sealedNow := sealFinishesACompleteImage t hphase hcomplete
  refine ⟨t.sealedNow, ?_, hrom, fun a => ?_, hcomplete, rfl, ?_, hpending, hopcode, hirq, hz, houtput⟩
  · rw [runOps_append hrun, runOps_cons hseal]
    rfl
  · rw [State.sealedNow_rom, hread, lastWord_encoderOps]
    rfl
  · rw [State.sealedNow_stepIndex, hstep, encoderOps_length]
    omega

/-- Settles O47: the sequence and SEAL make of the build the sealed image of the closed form. -/
theorem anyAluOrderBuildsItsClosedForm : Obligations.AnyAluOrderBuildsItsClosedForm := by
  intro order s h hs hwf
  obtain ⟨t, hrun, hbuilt⟩ := runOps_encoderOps_sealImage h hs hwf
  exact ⟨t, hrun, hbuilt.phase, hbuilt.stepIndex, hbuilt.isWritten, hbuilt.read⟩

/-! ## The trap rows and the interrupt half -/

/-- In the reference image the read port answers the word of the closed form. -/
theorem State.ReferenceImage.present (h : s.ReferenceImage) (opcode : Opcode) (irq z : Bit) :
    s.present opcode irq z =
      .next (s.withOutput (.port (imageWord (aluWordAt opcode) opcode irq z)
        (unpack (imageWord (aluWordAt opcode) opcode irq z)))) := by
  obtain ⟨hsealed, hread⟩ := h
  rw [State.present_sealed hsealed, hread, finalWord_formAddress]

/-- With irq = 1 the read port answers the interrupt word and its fields at every opcode (R104, R156). -/
theorem State.ReferenceImage.present_irq (h : s.ReferenceImage) (opcode : Opcode) (z : Bit) :
    s.present opcode 1 z = .next (s.withOutput (.port 0x10007 interruptConfig)) := by
  have hfields : unpack 0x10007 = interruptConfig := by decide
  rw [h.present, imageWord_irq, hfields]

/-- With irq = 0 it answers the illegal-instruction word and its fields at the unprogrammed opcodes (R102). -/
theorem State.ReferenceImage.present_illegal (h : s.ReferenceImage) {opcode : Opcode} (ho : opcode ∈ illegalOpcodes) (z : Bit) :
    s.present opcode 0 z = .next (s.withOutput (.port 0x0C007 illegalConfig)) := by
  have hfields : unpack 0x0C007 = illegalConfig := by decide
  rw [h.present, (imageWord_eq_illegal opcode z).mpr ho, hfields]

/-- Settles O23: each trap row presents its own opcode, with irq 1 or 0. -/
theorem trapRowsAnswerTheirWords : Obligations.TrapRowsAnswerTheirWords :=
  fun _ opcode z hs => ⟨hs.present_irq opcode z, fun ho => hs.present_illegal ho z⟩

/-- Settles O45: the class rules program with irq = 0, so they leave no word on the interrupt half, where the reference image
holds the interrupt word. -/
theorem classRulesNeverTouchInterruptAddresses : Obligations.ClassRulesNeverTouchInterruptAddresses := by
  refine ⟨fun order i hi => ?_, fun order s h hs hwf => ?_, fun s opcode z hs => ⟨_, _, hs.present_irq opcode z, rfl⟩⟩
  · obtain ⟨opcode, z, F, -, rfl⟩ := mem_classOps_irq hi
    exact ⟨opcode, z, F, rfl⟩
  · obtain ⟨t, hrun, -, -, -, hread, -⟩ := runOps_programs _ (classOps_succeeds h) hs hwf
    exact ⟨t, hrun, fun a hirq => by rw [hread, lastWord_classOps_irq order hirq]; rfl⟩

/-! ## The order of the instantiations -/

/-- In the listed order the instantiations leave the words of R109's table. -/
theorem aluWordFor_aluOrder (opcode : Opcode) : aluWordFor Config.aluOrder opcode = aluWordAt opcode := by
  revert opcode
  decide

theorem finalWordFor_aluOrder (a : Address) : finalWordFor Config.aluOrder a = finalWord a := by
  rw [finalWordFor, aluWordFor_aluOrder, finalWord]

/-- Two of the 13 instantiations share no opcode but XOR's and XNOR's 0x2A and 0x3A (R82, R107). -/
theorem aluOrder_collision :
    ∀ e ∈ Config.aluOrder, ∀ f ∈ Config.aluOrder, ∀ n ∈ [e.base ||| 0b10000, e.base], n ∈ [f.base ||| 0b10000, f.base] →
      e = f ∨ n = 0x2A ∨ n = 0x3A := by decide

/-- At every other opcode two of the instantiations can run in either order. -/
theorem aluOrder_wordAt_comm {e f : AluEntry} (he : e ∈ Config.aluOrder) (hf : f ∈ Config.aluOrder) {opcode : Opcode}
    (h2A : opcode ≠ 0x2A) (h3A : opcode ≠ 0x3A) (found : Option ControlWord) :
    (f.wordAt opcode).or ((e.wordAt opcode).or found) = (e.wordAt opcode).or ((f.wordAt opcode).or found) := by
  by_cases hen : opcode.toNat ∈ [e.base ||| 0b10000, e.base]
  · by_cases hfn : opcode.toNat ∈ [f.base ||| 0b10000, f.base]
    · obtain rfl | hn | hn := aluOrder_collision e he f hf _ hen hfn
      · rfl
      · exact absurd (BitVec.eq_of_toNat_eq hn) h2A
      · exact absurd (BitVec.eq_of_toNat_eq hn) h3A
    · rw [AluEntry.wordAt_eq_none hfn, Option.none_or, Option.none_or]
  · rw [AluEntry.wordAt_eq_none hen, Option.none_or, Option.none_or]

/-- Settles O52: off the two shared opcodes the instantiations commute, so any order of them leaves what the listed one does. -/
theorem onlyTheCollisionDependsOnAluOrder : Obligations.OnlyTheCollisionDependsOnAluOrder := by
  intro order a hperm h2A h3A
  have halu : aluWordFor order (addressOpcode a) = aluWordFor Config.aluOrder (addressOpcode a) := by
    rw [aluWordFor_eq_foldl, aluWordFor_eq_foldl]
    exact hperm.foldl_eq' (fun e he f hf found =>
      aluOrder_wordAt_comm (hperm.mem_iff.mp he) (hperm.mem_iff.mp hf) h2A h3A found) none
  rw [finalWordFor, halu, ← finalWordFor, finalWordFor_aluOrder]

/-! ## Running waiting operations by steps -/

theorem State.programBuilding_withPending (s : State) (is : List Instr) (opcode z irq : Nat) (F : FieldConfig) :
    (s.withPending is).programBuilding opcode z irq F = (s.programBuilding opcode z irq F).withPending is := by
  unfold State.programBuilding
  split
  · split <;> rfl
  · rfl

theorem State.sealImage_withPending (is : List Instr) (h : s.sealImage = .next t) :
    (s.withPending is).sealImage = .next (t.withPending is) := by
  obtain ⟨hp, rfl⟩ | ⟨hp, hall, rfl⟩ | ⟨hp, a, ha, rfl⟩ := State.sealImage_next h
  · exact State.sealImage_of_sealed hp
  · exact sealFinishesACompleteImage (s.withPending is) hp hall
  · have hraise : (s.withPending is).sealBuilding = (s.withPending is).raise (.incompleteImage a) :=
      State.sealBuilding_of_incomplete ha
    calc (s.withPending is).sealImage = .next (s.withPending is).sealBuilding := State.sealImage_of_building hp
      _ = .next ((s.withPending is).raise (.incompleteImage a)) := by rw [hraise]

theorem State.present_withPending {opcode : Opcode} {irq z : Bit} (is : List Instr) (h : s.present opcode irq z = .next t) :
    (s.withPending is).present opcode irq z = .next (t.withPending is) := by
  obtain ⟨hp, rfl⟩ := State.present_next h
  exact State.present_sealed (s := s.withPending is) hp opcode irq z

/-- No instruction looks at the waiting operations. -/
theorem exec_withPending {i : Instr} (is : List Instr) (h : exec i s = .next t) :
    exec i (s.withPending is) = .next (t.withPending is) := by
  cases i with
  | create => obtain ⟨hp, rfl⟩ := State.create_next h; exact State.create_of_none hp
  | unpack w => injection h with h; exact h ▸ rfl
  | program opcode z irq F =>
    obtain ⟨hp, rfl⟩ := State.program_next h
    exact (State.program_of_building (s := s.withPending is) hp opcode z irq F).trans
      (congrArg _ (s.programBuilding_withPending is opcode z irq F))
  | sealImage => exact State.sealImage_withPending is h
  | read a =>
    obtain ⟨hp, ha, rfl⟩ := State.read_next h
    exact State.read_sealed (s := s.withPending is) hp ha
  | _ => exact State.present_withPending is h

theorem runOps_withPending {ops : List Instr} (is : List Instr) (h : runOps ops s = .next t) :
    runOps ops (s.withPending is) = .next (t.withPending is) := by
  induction ops generalizing s with
  | nil => injection h with h; exact h ▸ rfl
  | cons i ops ih =>
    obtain ⟨u, hu, hrest⟩ := runOps_cons_next h
    rw [runOps_cons (exec_withPending is hu), ih hrest]

/-- Operations that wait are carried out by as many steps, which leave what running the list leaves (log 3). -/
theorem run_waiting {ops rest : List Instr} (hp : s.pending = ops ++ rest) (h : runOps ops s = .next t) :
    Host.Core.run Sys2Proof.core ops.length s = .next (t.withPending rest) := by
  induction ops generalizing s t with
  | nil =>
    injection h with h
    rw [← h, ← List.nil_append rest, ← hp]
    rfl
  | cons i ops ih =>
    obtain ⟨u, hu, hrest⟩ := runOps_cons_next h
    have hstep : Sys2Proof.core.step s = .next (u.withPending (ops ++ rest)) :=
      (step_of_pending hp).trans (exec_withPending _ hu)
    rw [List.length_cons, run_succ _ hstep]
    exact ih (t := t.withPending (ops ++ rest)) rfl (runOps_withPending (ops ++ rest) hrest)

/-! ## The reference run -/

/-- An image listed over distinct addresses reads at a listed one as the word listed for it. -/
theorem Memory.read_map {w : Address → ControlWord} {l : List Address} {a : Address} (h : a ∈ l) :
    Memory.read (l.map fun b => (b.toNat, w b)) a.toNat = w a := by
  induction l with
  | nil => cases h
  | cons b l ih =>
    rw [List.map_cons, Memory.read_cons]
    by_cases hab : a = b
    · rw [hab, if_pos rfl]
    · rw [if_neg fun e => hab (BitVec.eq_of_toNat_eq e)]
      exact ih ((List.mem_cons.mp h).resolve_left hab)

theorem referenceRom_read (a : Address) : referenceRom.read a.toNat = finalWord a :=
  Memory.read_map (mem_allAddresses a)

/-- No word of the reference image is 0: each class sets moe and werf (R109). -/
theorem finalWord_ne_zero (a : Address) : finalWord a ≠ 0 := by
  have hall : ∀ (opcode : Opcode) (irq z : Bit), imageWord (aluWordAt opcode) opcode irq z ≠ 0 := by decide
  exact hall _ _ _

theorem referenceRom_wf : referenceRom.wf := by
  refine ⟨List.pairwise_map.mpr allAddresses_sorted, fun c hc => ?_⟩
  obtain ⟨a, -, rfl⟩ := List.mem_map.mp hc
  exact ⟨a.isLt, finalWord_ne_zero a⟩

/-- Two images in canonical form that read alike inside the space are the same image. -/
theorem Memory.ext_of_read_address {m n : Memory} (hm : m.wf) (hn : n.wf) (h : ∀ a : Address, m.read a.toNat = n.read a.toNat) :
    m = n := by
  have hout {k : Memory} (hk : k.wf) {a : Nat} (ha : ¬ a < 256) : k.read a = 0 :=
    Memory.read_of_unlisted fun c hc e => ha (e ▸ (hk.2 c hc).1)
  refine Memory.ext_of_read hm hn fun a => ?_
  by_cases ha : a < 256
  · exact h (BitVec.ofFin ⟨a, ha⟩)
  · rw [hout hm ha, hout hn ha]

/-- The sealed reference image is what the encoder's sequence makes of a build from step 0, in the listed order. -/
theorem Built.eq_withReferenceImage (h : Built Config.aluOrder s t) (hs : s.stepIndex = 0) : t = s.withReferenceImage := by
  have hrom : t.rom = referenceRom := Memory.ext_of_read_address h.rom_wf referenceRom_wf fun a => by
    rw [h.read, finalWordFor_aluOrder, referenceRom_read]
  have hwritten : t.written = Vector.replicate 256 true := Vector.ext fun i hi => by
    rw [Vector.getElem_replicate]
    exact h.isWritten (BitVec.ofFin ⟨i, hi⟩)
  have hstep : t.stepIndex = 316 := by rw [h.stepIndex, hs]; rfl
  rw [State.withReferenceImage, ← hrom, ← hwritten, ← hstep, ← h.phase, ← h.pending, ← h.portOpcode, ← h.portIrq, ← h.portZ,
    ← h.output]

theorem State.withReferenceImage_referenceImage (s : State) : s.withReferenceImage.ReferenceImage :=
  ⟨rfl, referenceRom_read⟩

/-- Settles O48: at reset the reference build waits, 317 operations, and running them seals the reference image. -/
theorem referenceRunReachesTheClosedForm : Obligations.ReferenceRunReachesTheClosedForm := by
  obtain ⟨t, hrun, hbuilt⟩ :=
    runOps_encoderOps_sealImage (order := Config.aluOrder) (s := State.reset) (by decide) rfl State.reset_rom_wf
  have hlength : referenceBuild.length = 317 := by rw [referenceBuild, List.length_append, encoderOps_length]; rfl
  have hsteps := run_waiting (ops := referenceBuild) (rest := []) (List.append_nil referenceBuild).symm hrun
  rw [hbuilt.eq_withReferenceImage rfl, hlength] at hsteps
  exact ⟨_, hsteps, rfl, State.reset.withReferenceImage_referenceImage⟩

end Sys2Proof.Machine
end

section
/-! The arithmetic/logic class (43_alu_class.md): the word of an ALUOp form as its base word with the function code put in, the
four addresses ALUOp writes (R110), the rows that read its words in the reference image (R112 to R137), and the image with XNOR
instantiated before XOR (R111). -/

namespace Sys2Proof

/-! ## The words of the two forms -/

/-- Truncating a number commutes with shifting it up. -/
theorem ofNat_shiftLeft (w n k : Nat) : BitVec.ofNat w (n <<< k) = BitVec.ofNat w n <<< k := by
  refine BitVec.eq_of_toNat_eq ?_
  rw [BitVec.toNat_shiftLeft, BitVec.toNat_ofNat, BitVec.toNat_ofNat, Nat.shiftLeft_eq, Nat.shiftLeft_eq, Nat.mod_mul_mod]

/-- The word of an ALUOp form: moe, werf and wdsel make 0x00205, and bsel and the function code stand beside them (R109, R110). -/
theorem pack_aluConfig (fn bsel : Nat) :
    pack (aluConfig fn bsel) = 0x00205#17 ||| (BitVec.ofNat 17 bsel <<< 11) ||| (BitVec.ofNat 17 fn <<< 4) := by
  have hreorder (x y : ControlWord) :
      0x00005#17 ||| x ||| 0x00200#17 ||| y = (0x00005#17 ||| 0x00200#17) ||| y ||| x := by ac_rfl
  simpa [pack, aluConfig, BitVec.ofNat_or, ofNat_shiftLeft] using
    hreorder (BitVec.ofNat 17 fn <<< 4) (BitVec.ofNat 17 bsel <<< 11)

/-- Where bit 4 of a base is clear, setting it adds 16, so the two forms have different opcodes (R110). -/
theorem or_sixteen_eq_add {base : Nat} (hbase : base < 64) (h : base &&& 16 = 0) : base ||| 16 = base + 16 := by
  revert base
  decide

end Sys2Proof

namespace Sys2Proof.Machine

variable {s : State}

/-! ## ALUOp -/

/-- What ALUOp leaves at any address, once its two forms have different opcodes. Of its four PROGRAMs the last that names the
address decides (R52, R110). -/
theorem lastWord_aluOp_eq {base : Nat} (hconst : base ||| 0b10000 = base + 16) (fn b : Nat) :
    lastWord (aluOp base fn) b =
      if b = 4 * (base + 16) ∨ b = 4 * (base + 16) + 1 then some (pack (aluConfig fn 1))
      else if b = 4 * base ∨ b = 4 * base + 1 then some (pack (aluConfig fn 0))
      else none := by
  have hlast : lastWord (aluOp base fn) b =
      if b = formedNumber (base ||| 0b10000) 0 1 then some (pack (aluConfig fn 1))
      else if b = formedNumber base 0 1 then some (pack (aluConfig fn 0))
      else if b = formedNumber (base ||| 0b10000) 0 0 then some (pack (aluConfig fn 1))
      else if b = formedNumber base 0 0 then some (pack (aluConfig fn 0))
      else none := rfl
  simp only [formedNumber_eq_sum (irq := 0), Nat.zero_lt_two, Nat.one_lt_two, hconst] at hlast
  grind only

/-- Settles O42: the four PROGRAMs succeed, and the addresses of the two forms differ. -/
theorem aluOpProgramsFourAddresses : Obligations.AluOpProgramsFourAddresses := by
  intro s base fn hs hwf hbase hbit hfn
  obtain ⟨t, hrun, hphase, -, hstep, hread, -⟩ := runOps_programs _ (aluOp_succeeds hbase hfn) hs hwf
  have hlast := lastWord_aluOp_eq (or_sixteen_eq_add hbase hbit) fn
  refine ⟨t, hrun, hphase, hstep, fun z hz => ⟨?_, ?_⟩, fun b hb => ?_⟩
  · rw [hread, hlast, if_neg (by omega), if_pos (by omega)]
    exact pack_aluConfig fn 0
  · rw [hread, hlast, if_pos (by omega)]
    exact pack_aluConfig fn 1
  · obtain ⟨hbase0, hconst0⟩ := hb 0 (by decide)
    obtain ⟨hbase1, hconst1⟩ := hb 1 (by decide)
    rw [hread, hlast, if_neg (by omega), if_neg (by omega)]
    rfl

/-! ## The rows of the two blocks -/

/-- The reference word at an opcode of the two blocks is that of ALUOp, with the function code of the low four bits and bit 4 as
bsel (R109, R110). -/
theorem aluWordAt_append (bsel : Bit) (k : BitVec 4) :
    aluWordAt (1#1 ++ bsel ++ k) = (aluFn k).map fun fn => pack (aluConfig fn.toNat bsel.toNat) := by
  revert bsel k
  decide

/-- No opcode of the two blocks belongs to another class, so the closed form holds there the arithmetic/logic word (R109). -/
theorem imageWord_append (bsel : Bit) (k : BitVec 4) (w : ControlWord) (z : Bit) :
    imageWord (some w) (1#1 ++ bsel ++ k) 0 z = w := by
  have hclass : ∀ (bsel : Bit) (k : BitVec 4), (1#1 ++ bsel ++ k : Opcode) ∉ [0x1B, 0x1C, 0x1D, 0x1F] := by decide
  have hop := hclass bsel k
  simp only [List.mem_cons, List.not_mem_nil, or_false, not_or] at hop
  obtain ⟨hjmp, hbeq, hbne, hldr⟩ := hop
  rw [imageWord, if_neg (by decide), if_neg hjmp, if_neg (not_or.mpr ⟨hbeq, hbne⟩), if_neg hldr, Option.getD_some]

/-- A row of the two blocks answers the word and the fields of ALUOp with the function code of its low four opcode bits. -/
theorem State.ReferenceImage.exec_alu (h : s.ReferenceImage) {i : Instr} (bsel : Bit) (k : BitVec 4) (fn : BitVec 5) {z : Bit}
    (hi : i.inputs = some (1#1 ++ bsel ++ k, 0, z)) (hfn : aluFn k = some fn) :
    exec i s =
      .next (s.withOutput (.port (pack (aluConfig fn.toNat bsel.toNat)) (aluConfig fn.toNat bsel.toNat))) := by
  have hfits : (aluConfig fn.toNat bsel.toNat).Fits := aluConfig_fits fn.isLt bsel.isLt
  rw [exec_of_inputs hi, h.present, aluWordAt_append, hfn, Option.map_some, imageWord_append, unpack_pack hfits]

/-- Settles O19: the two-register block has bsel = 0; XOR's opcode ends in XNOR's 0xA. -/
theorem twoRegisterRowsAnswerTheirWords : Obligations.TwoRegisterRowsAnswerTheirWords := fun _ _ hs =>
  ⟨hs.exec_alu 0 0x0 0b00000 rfl rfl,   -- ADD
    hs.exec_alu 0 0x1 0b00001 rfl rfl,   -- SUB
    hs.exec_alu 0 0x2 0b00010 rfl rfl,   -- MUL
    hs.exec_alu 0 0x4 0b00101 rfl rfl,   -- CMPEQ
    hs.exec_alu 0 0x5 0b00111 rfl rfl,   -- CMPLT
    hs.exec_alu 0 0x6 0b01101 rfl rfl,   -- CMPLE
    hs.exec_alu 0 0x8 0b11000 rfl rfl,   -- AND
    hs.exec_alu 0 0x9 0b11110 rfl rfl,   -- OR
    hs.exec_alu 0 0xA 0b11001 rfl rfl,   -- XOR
    hs.exec_alu 0 0xA 0b11001 rfl rfl,   -- XNOR
    hs.exec_alu 0 0xC 0b01000 rfl rfl,   -- SHL
    hs.exec_alu 0 0xD 0b01001 rfl rfl,   -- SHR
    hs.exec_alu 0 0xE 0b01011 rfl rfl⟩   -- SRA

/-- Settles O20: the constant block has bsel = 1 and the same function codes. -/
theorem constantRowsAnswerTheirWords : Obligations.ConstantRowsAnswerTheirWords := fun _ _ hs =>
  ⟨hs.exec_alu 1 0x0 0b00000 rfl rfl,   -- ADDC
    hs.exec_alu 1 0x1 0b00001 rfl rfl,   -- SUBC
    hs.exec_alu 1 0x2 0b00010 rfl rfl,   -- MULC
    hs.exec_alu 1 0x4 0b00101 rfl rfl,   -- CMPEQC
    hs.exec_alu 1 0x5 0b00111 rfl rfl,   -- CMPLTC
    hs.exec_alu 1 0x6 0b01101 rfl rfl,   -- CMPLEC
    hs.exec_alu 1 0x8 0b11000 rfl rfl,   -- ANDC
    hs.exec_alu 1 0x9 0b11110 rfl rfl,   -- ORC
    hs.exec_alu 1 0xA 0b11001 rfl rfl,   -- XORC
    hs.exec_alu 1 0xA 0b11001 rfl rfl,   -- XNORC
    hs.exec_alu 1 0xC 0b01000 rfl rfl,   -- SHLC
    hs.exec_alu 1 0xD 0b01001 rfl rfl,   -- SHRC
    hs.exec_alu 1 0xE 0b01011 rfl rfl⟩   -- SRAC

/-! ## The swapped order -/

/-- The order with XNOR instantiated before XOR, the other choice of D13 (R111). -/
def swappedAluOrder : List AluEntry :=
  Config.aluOrder.take 8 ++ [⟨0b101010, 0b11001⟩, ⟨0b101010, 0b10110⟩] ++ Config.aluOrder.drop 10

/-- Swapping the two is one of the orders of the same 13 instantiations. -/
theorem swappedAluOrder_perm : swappedAluOrder.Perm Config.aluOrder := by decide

/-- Settles O53: at the two shared opcodes the eight words are closed facts; off them no order of the instantiations matters. -/
theorem swappedOrderChangesFourWords : Obligations.SwappedOrderChangesFourWords := by
  intro a
  refine ⟨finalWordFor_aluOrder a, ?_⟩
  show finalWordFor swappedAluOrder a = _
  by_cases hop : addressOpcode a ∈ [0x2A, 0x3A]
  · rw [← formAddress_split a]
    generalize addressOpcode a = op, addressIrq a = irq, addressZero a = z at hop
    revert op irq z
    decide
  · simp only [List.mem_cons, List.not_mem_nil, or_false, not_or] at hop
    obtain ⟨h2A, h3A⟩ := hop
    rw [onlyTheCollisionDependsOnAluOrder _ a swappedAluOrder_perm h2A h3A, if_neg, if_neg]
    · rintro (rfl | rfl) <;> exact h3A rfl
    · rintro (rfl | rfl) <;> exact h2A rfl

end Sys2Proof.Machine
end

section
/-! The branch, load and jump classes (44_branch_load_jump.md): the rows that read their words in the reference image (R139 to
R141, R143, R145), and the two addresses each of their rules writes (R138, R142, R144). -/

namespace Sys2Proof.Machine

variable {s : State} {i : Instr} {opcode : Opcode}

/-! ## The rows -/

/-- The closed form holds at both branch opcodes the word of Branch at the zero value (R109, R138). -/
theorem imageWord_branch (hop : opcode = 0x1C ∨ opcode = 0x1D) (alu : Option ControlWord) (z : Bit) :
    imageWord alu opcode 0 z = pack (branchConfig z.toNat) := by
  have hjump : opcode ≠ 0x1B := by rintro rfl; revert hop; decide
  rw [imageWord, if_neg (by decide), if_neg hjump, if_pos hop]
  obtain rfl | rfl : z = 0 ∨ z = 1 := BitVec.eq_zero_or_eq_one z <;> decide

/-- A row with irq = 0 whose address holds the word of validated fields answers that word and those fields. -/
theorem State.ReferenceImage.exec_row (h : s.ReferenceImage) {z : Bit} {F : FieldConfig}
    (hi : i.inputs = some (opcode, 0, z)) (hF : F.Fits) (hw : imageWord (aluWordAt opcode) opcode 0 z = pack F) :
    exec i s = .next (s.withOutput (.port (pack F) F)) := by
  rw [exec_of_inputs hi, h.present, hw, unpack_pack hF]

/-- The fields of a branch word fit at both zero values: its pcsel is 1 or 0 (R79, R138). -/
theorem branchConfig_fits (z : Bit) : (branchConfig z.toNat).Fits := by
  obtain rfl | rfl : z = 0 ∨ z = 1 := BitVec.eq_zero_or_eq_one z <;> decide

/-- BEQ and BNE answer one pair of words, chosen by the zero bit (R141). -/
theorem State.ReferenceImage.exec_branch (h : s.ReferenceImage) (z : Bit) (hi : i.inputs = some (opcode, 0, z))
    (hop : opcode = 0x1C ∨ opcode = 0x1D) :
    exec i s = .next (s.withOutput (.port (pack (branchConfig z.toNat)) (branchConfig z.toNat))) :=
  h.exec_row hi (branchConfig_fits z) (imageWord_branch hop _ z)

/-- Settles O21: both rows are branch rows, and their pair of words is 0x04005 with pcsel 1 and 0x00005 with pcsel 0. -/
theorem branchRowsAnswerByTheZeroBit : Obligations.BranchRowsAnswerByTheZeroBit := fun _ hs =>
  ⟨hs.exec_branch 0 rfl (.inl rfl),   -- BEQ
    hs.exec_branch 1 rfl (.inl rfl),
    hs.exec_branch 0 rfl (.inr rfl),   -- BNE
    hs.exec_branch 1 rfl (.inr rfl)⟩

/-- Settles O22: at the opcodes of LDR and JMP the closed form holds the words of Load and Jump. -/
theorem loadAndJumpRowsAnswerTheirWords : Obligations.LoadAndJumpRowsAnswerTheirWords := fun _ _ hs =>
  ⟨hs.exec_row (F := loadConfig) rfl (by decide) rfl, hs.exec_row (F := jumpConfig) rfl (by decide) rfl⟩

/-! ## The rules -/

/-- The two PROGRAMs of an opcode with irq = 0 name two neighbouring addresses, the even one for zero = 0 (R59). -/
theorem lastWord_zeroPair_eq (op : Nat) (F G : FieldConfig) (b : Nat) :
    lastWord [.program op 0 0 F, .program op 1 0 G] b =
      if b = 4 * op then some (pack F) else if b = 4 * op + 1 then some (pack G) else none := by
  have hlast : lastWord [.program op 0 0 F, .program op 1 0 G] b =
      if b = formedNumber op 0 1 then some (pack G) else if b = formedNumber op 0 0 then some (pack F) else none := rfl
  rw [hlast, formedNumber_eq_sum Nat.zero_lt_two Nat.one_lt_two, formedNumber_eq_sum Nat.zero_lt_two Nat.zero_lt_two]
  grind only

/-- Running the pair writes those two addresses and no other. -/
theorem runOps_zeroPair {op : Nat} {F G : FieldConfig} (hop : op < 64) (hF : F.Fits) (hG : G.Fits)
    (hs : s.phase = some .building) (hwf : s.rom.wf) :
    ∃ t, runOps [.program op 0 0 F, .program op 1 0 G] s = .next t ∧ t.phase = some .building ∧
      t.stepIndex = s.stepIndex + 2 ∧
      ∀ b, t.rom.read b = if b = 4 * op then pack F else if b = 4 * op + 1 then pack G else s.rom.read b := by
  obtain ⟨t, hrun, hphase, -, hstep, hread, -⟩ :=
    runOps_programs _ (zeroPair_succeeds hop Nat.zero_lt_two hF hG) hs hwf
  refine ⟨t, hrun, hphase, hstep, fun b => ?_⟩
  rw [hread, lastWord_zeroPair_eq]
  split
  · rfl
  · split <;> rfl

/-- Settles O44: Branch, Load and Jump are such pairs; the words of Branch differ, and Load and Jump write one word twice. -/
theorem branchLoadJumpProgramTwoAddresses : Obligations.BranchLoadJumpProgramTwoAddresses := by
  intro s op hs hwf hop
  simp only [ite_or]
  exact ⟨runOps_zeroPair (F := branchConfig 0) (G := branchConfig 1) hop (by decide) (by decide) hs hwf,
    runOps_zeroPair (F := loadConfig) (G := loadConfig) hop (by decide) (by decide) hs hwf,
    runOps_zeroPair (F := jumpConfig) (G := jumpConfig) hop (by decide) (by decide) hs hwf⟩

end Sys2Proof.Machine
end

section
/-! Build errors and the faults that follow them (60_exceptions.md): the two errors PROGRAM raises, in the order of its checks
(R147, R148, R153), and the operations of an aborted build (R150, R151, R159). -/

namespace Sys2Proof

/-- The fields are listed in ascending offset (R63). -/
theorem Field.all_sorted : Field.all.Pairwise (fun f g => f.offset < g.offset) := by decide

/-- The overflowing field below which every field fits is the one PROGRAM reports, for the fields before it in the list are
those of lower offset (R153). -/
theorem firstOverflow_of_lowest {F : FieldConfig} {f : Field} (hover : 2 ^ f.width ≤ F.get f)
    (hlow : ∀ g : Field, g.offset < f.offset → F.get g < 2 ^ g.width) : F.firstOverflow = some f := by
  obtain ⟨before, after, hall⟩ := List.append_of_mem f.mem_all
  have hsorted := Field.all_sorted
  rw [hall, List.pairwise_append] at hsorted
  obtain ⟨-, -, hbefore⟩ := hsorted
  exact firstOverflow_eq_some.mpr
    ⟨hover, before, after, hall, fun g hg => hlow g (hbefore g hg f List.mem_cons_self)⟩

/-- One sub-field out of range makes the three illegal. -/
theorem subFieldsLegal_eq_false {opcode irq z : Nat} (h : 64 ≤ opcode ∨ 2 ≤ irq ∨ 2 ≤ z) :
    subFieldsLegal opcode irq z = false := by
  rw [Bool.eq_false_iff, ne_eq, subFieldsLegal_iff]
  omega

end Sys2Proof

namespace Sys2Proof.Machine

variable {s : State}

/-! ## The build errors of PROGRAM -/

/-- With the sub-fields in range, PROGRAM raises the overflow of the field it finds first (R147). -/
theorem State.programBuilding_of_overflow {opcode z irq : Nat} {F : FieldConfig} {f : Field}
    (hlegal : subFieldsLegal opcode irq z = true) (hf : F.firstOverflow = some f) :
    s.programBuilding opcode z irq F =
      s.raise (.fieldOverflow (BitVec.ofNat 8 (formedNumber opcode irq z)) opcode irq z f (F.get f) f.width) := by
  unfold State.programBuilding
  rw [if_pos hlegal, hf]

/-- Settles O29: PROGRAM checks the sub-fields first, and `raise` changes the phase alone. -/
theorem programRaisesAddressOutOfRange : Obligations.ProgramRaisesAddressOutOfRange := by
  intro s opcode z irq F hs hrange
  calc exec (.program opcode z irq F) s = .next (s.programBuilding opcode z irq F) :=
        State.program_of_building hs opcode z irq F
    _ = .next (s.raise (.addressOutOfRange opcode irq z (formedNumber opcode irq z))) := by
        rw [State.programBuilding_of_illegal (subFieldsLegal_eq_false hrange)]

/-- Settles O30: past the check of the sub-fields, the lowest field that overflows is the one PROGRAM finds first, and the formed
number is the sum of the sub-fields. -/
theorem programRaisesFieldOverflow : Obligations.ProgramRaisesFieldOverflow := by
  intro s opcode z irq F f hs hopcode hirq hz hover hlow
  have hlegal : subFieldsLegal opcode irq z = true := subFieldsLegal_iff.mpr ⟨hopcode, hirq, hz⟩
  rw [← formedNumber_eq_sum hirq hz]
  calc exec (.program opcode z irq F) s = .next (s.programBuilding opcode z irq F) :=
        State.program_of_building hs opcode z irq F
    _ = .next (s.raise
          (.fieldOverflow (BitVec.ofNat 8 (formedNumber opcode irq z)) opcode irq z f (F.get f) f.width)) := by
        rw [State.programBuilding_of_overflow hlegal (firstOverflow_of_lowest hover hlow)]

/-! ## The aborted build -/

/-- After a build error no word can be read, inside the space or outside it (R150). -/
theorem State.readWord_of_aborted {e : BuildError} (h : s.phase = some (.aborted e)) (a : Nat) :
    s.readWord a = .error (.buildAborted e) := by
  unfold State.readWord
  rw [h]

/-- Settles O36: CREATE finds a phase; PROGRAM, SEAL and READ find the first error in it; every other row but UNPACK is a
presentation at the read port, whose read finds that error too. -/
theorem abortedBuildAnswersNothing : Obligations.AbortedBuildAnswersNothing := by
  intro s e i hs hunpack
  obtain rfl | hcreate := eq_or_ne i .create
  · rw [if_pos rfl]
    exact State.create_of_some hs
  · rw [if_neg hcreate]
    cases i with
    | create => exact absurd rfl hcreate
    | unpack w => exact absurd rfl (hunpack w)
    | program opcode z irq F => exact State.program_of_aborted hs opcode z irq F
    | sealImage => exact State.sealImage_of_aborted hs
    | read a => exact State.read_of_error (State.readWord_of_aborted hs a)
    | _ => exact State.present_of_error (State.readWord_of_aborted hs _)

end Sys2Proof.Machine
end
